-- ==== Sys2Proof/Word.lean ====
section
/-! DEFINITION. The data the block works on: bytes, 16-bit words, the 17-bit temperature, and the output
record made of them, and the event of a step (00_scope.md R10, R11; 10_state.md R30; 44_pipeline.md R200). -/

namespace Sys2Proof

/-- A byte, an integer in 0..255 (00_scope.md R10). -/
abbrev Byte := BitVec 8

/-- A 16-bit unsigned field of the payload (30_encoding.md R76). -/
abbrev Half := BitVec 16

/-- A 17-bit two's-complement count of tenths of a degree (42_decoder.md R155). -/
abbrev Temp := BitVec 17

/-- The output record `MEAS` (10_state.md R30): seven values and the two presence flags. There is no `ch2o`
field (42_decoder.md R160). -/
structure Meas where
  /-- CO2 in ppm (R152). -/
  co2 : Half
  /-- VOC, a raw index (R153). -/
  voc : Half
  /-- Humidity in tenths of a percent (R154). -/
  humX10 : Half
  /-- Temperature in tenths of a degree Celsius, two's complement (R155). -/
  tempX10 : Temp
  /-- PM2.5 in µg/m³, no sentinel (R156). -/
  pm25 : Half
  /-- PM10 in µg/m³, 0 when absent (R158). -/
  pm10 : Half
  /-- 1 when the raw PM10 word was not zero (R158). -/
  pm10Present : Bool
  /-- PM1 in µg/m³, 0 when absent (R159). -/
  pm1 : Half
  /-- 1 when the raw PM1 word was not zero (R159). -/
  pm1Present : Bool
  deriving DecidableEq, Repr, Inhabited

/-- The result of a step: one event out of four (44_pipeline.md R200). -/
inductive Event where
  /-- `NONE`: the byte was skipped or accumulated. -/
  | none
  /-- `CORRUPT`: a completed frame failed VERIFY and is dropped. -/
  | corrupt
  /-- `LENERR(n)`: a verified frame of `n` bytes, `n` not the accepted length. -/
  | lenErr (n : Nat)
  /-- `MEAS(r)`: a frame was decoded into the record `r`. -/
  | meas (r : Meas)
  deriving DecidableEq, Repr

end Sys2Proof
end

