-- ==== Sys2Proof/Config.lean ====
section
/-! DEFINITION. The block's constants and parameters (00_scope.md R6, R7) and the free value of the model. -/

namespace Sys2Proof

/-- The open parameters of the block (00_scope.md R6; 93 P1, P2, P4). They are static: no step writes them
(20_memory.md R63). A machine state carries one such record (assumption log 1). -/
structure Config where
  /-- `OVERHEAD`: how many bytes of a received frame its length byte does not count. -/
  overhead : Nat
  /-- `PAYLOAD_OFFSET`: the index in the frame of payload byte 0. -/
  payloadOffset : Nat
  /-- `CAL_W`: the width in bits of the port `req_current` (assumption log 16). -/
  calW : Nat
  deriving DecidableEq, Repr

/-- The decided profile (00_scope.md R6, R7; 92 D1, D2). -/
def Config.decided : Config := { overhead := 7, payloadOffset := 3, calW := 32 }

/-- The alternative profile, the source's formula and layout as written (00_scope.md R7). -/
def Config.alternative : Config := { overhead := 3, payloadOffset := 2, calW := 32 }

/-- `DELIM_RX`, the first byte of an inbound frame (00_scope.md R6). -/
def delimRx : Byte := 0x16

/-- `HEAD_TX`, the first byte of an outbound frame (00_scope.md R6). -/
def headTx : Byte := 0x11

/-- `PAYLOAD_LEN`, the bytes of measurement payload (00_scope.md R6). -/
def payloadLen : Nat := 14

/-- `TEMP_OFFSET`, subtracted from the raw temperature word (00_scope.md R6). -/
def tempOffset : Nat := 500

/-- `SCALE`, the divisor that humidity and temperature carry undivided (00_scope.md R6, 42_decoder.md R161). -/
def scale : Nat := 10

/-- `TX_OVERHEAD`, the bytes of an outbound frame its length byte does not count (00_scope.md R6). -/
def txOverhead : Nat := 3

/-- `FRAME_LEN_DEC`, the one frame length the decoder accepts (00_scope.md R6; 93 P3). -/
def Config.frameLenDec (c : Config) : Nat := c.payloadOffset + payloadLen + 1

/-- `MAXFRAME`, the largest possible frame and the depth of `BUF` (00_scope.md R6; 10_state.md R24). -/
def Config.maxFrame (c : Config) : Nat := 255 + c.overhead

/-- A configuration is well formed when some length byte gives a frame the decoder accepts, every frame has a byte
after its length byte, and the payload starts after the length byte (00_scope.md R7, which asks nothing of `CAL_W`). -/
def Config.wf (c : Config) : Bool :=
  decide (3 ≤ c.overhead) && decide (2 ≤ c.payloadOffset) &&
    decide (c.overhead ≤ c.frameLenDec) && decide (c.frameLenDec ≤ c.overhead + 255)

/-- The fields of `MEAS` after a RESET are unspecified (70_reset_and_hazards.md R250; 93 U1): a FREE VALUE, applied to
a counter the state holds, so that each RESET draws its own. Nothing constrains it (assumption log 9). -/
opaque Config.freeMeas : Nat → Meas

end Sys2Proof
end

