-- ==== Sys2Proof/Machine/Checksum.lean ====
section
/-! DEFINITION. The two functions of the Checksum Validator (41_checksum.md R130, R131), shared by the receive path and
the encoder. -/

namespace Sys2Proof.Machine

/-- `sum(F)`: the sum of the bytes as an unbounded natural number (00_scope.md R10). -/
def total : List Byte → Nat
  | [] => 0
  | b :: bs => b.toNat + total bs

/-- COMPUTE: `((~s) + 1) mod 256` of the unbounded sum `s` (41_checksum.md R130). -/
def compute (bytes : List Byte) : Byte :=
  BitVec.ofInt 8 (~~~(total bytes : Int) + 1)

/-- VERIFY: all bytes of the frame, trailer included, sum to 0 modulo 256; false of the empty sequence
(41_checksum.md R131; 92 D20). -/
def verify (frame : List Byte) : Bool :=
  !frame.isEmpty && total frame % 256 == 0

end Sys2Proof.Machine
end

