-- ==== Sys2Proof/Syntax.lean ====
section
/-! DEFINITION. The block's operations, one constructor per row of spec/opcode_table.json, and the values presented on
its input ports. -/

namespace Sys2Proof

/-- `ST`, the framer's sequencing state (10_state.md R26). The fourth code of the 2-bit register is written by no rule
and is not representable (93 U4; assumption log 12). -/
inductive FramerState where
  | hunt
  | len
  | data
  deriving DecidableEq, Repr

/-- What stands on the encoder's input ports while the host uses the encoder (43_encoder.md R180). -/
structure Request where
  /-- `req_kind`. -/
  kind : BitVec 2
  /-- The number put on `req_current`, a port of `CAL_W` bits (93 P4, U6). -/
  current : Nat
  /-- `req_enable`. -/
  enable : Bool
  deriving DecidableEq, Repr

/-- What stands on all the input ports in one clock period (44_pipeline.md R203, 43_encoder.md R180). The encoder is
available in every clock period, whatever stands on the receive ports (60_exceptions.md R235). -/
structure Input where
  rst : Bool
  rxValid : Bool
  rxData : Byte
  /-- The encoder's ports, none where the host does not use the encoder (assumption log 5). -/
  req : Option Request
  deriving DecidableEq, Repr

/-- The operations of the block, one constructor per row of spec/opcode_table.json. -/
inductive Instr where
  /-- SKIP: discard a byte that cannot start a frame (R101). -/
  | skip (b : Byte)
  /-- SOF: start of frame; its byte is `0x16` (R102). -/
  | sof
  /-- LEN: capture the length byte (R103). -/
  | len (l : Byte)
  /-- ACC: accumulate a frame byte that is not the last (R104). -/
  | acc (b : Byte)
  /-- EOF: accept the trailer and run the pipeline (R105). -/
  | eof (c : Byte)
  /-- COMPUTE: the checksum of a byte sequence (R130). -/
  | compute (bytes : List Byte)
  /-- VERIFY: does a frame carry the right trailer (R131). -/
  | verify (frame : List Byte)
  /-- LENCHK: has a verified frame the accepted length (R151). -/
  | lenchk (frame : List Byte)
  /-- DEC: decode a verified frame of the accepted length (R150). -/
  | dec (frame : List Byte)
  /-- DEC.CO2 on its two payload bytes, high byte first (R152). -/
  | decCo2 (h l : Byte)
  /-- DEC.VOC (R153). -/
  | decVoc (h l : Byte)
  /-- DEC.HUM (R154). -/
  | decHum (h l : Byte)
  /-- DEC.TEMP (R155). -/
  | decTemp (h l : Byte)
  /-- DEC.PM2_5 (R156). -/
  | decPm25 (h l : Byte)
  /-- DEC.PM10 (R158). -/
  | decPm10 (h l : Byte)
  /-- DEC.PM1 (R159). -/
  | decPm1 (h l : Byte)
  /-- ENC.START: encode `startStreaming` (R182). -/
  | encStart
  /-- ENC.CAL: encode `calibrateCO2(current)` (R183). -/
  | encCal (current : Nat)
  /-- ENC.DUST with `enable` true (R184). -/
  | encDustOn
  /-- ENC.DUST with `enable` false (R184). -/
  | encDustOff
  /-- ENC.RESERVED: the selector value 3, which selects no request (R185). -/
  | encReserved
  /-- RESET (R250). -/
  | reset
  deriving DecidableEq, Repr

/-- The function units that an operand is handed to inside a step (the FUNC and RX-MEAS rows of the table). -/
inductive FuncUnit where
  | compute
  | verify
  | lenchk
  | dec
  | co2
  | voc
  | hum
  | temp
  | pm25
  | pm10
  | pm1
  deriving DecidableEq, Repr

/-- Where the bytes of an operation are presented, and what else selects it: the table's `format` and `select`. -/
inductive Port where
  /-- `rx_data`, in framer state `st`; `last` says that `CNT + 1 = TOT` (30_encoding.md R80). -/
  | rx (st : FramerState) (last : Bool)
  /-- An outbound frame (30_encoding.md R81). -/
  | tx
  /-- The operand of a function unit. -/
  | unit (u : FuncUnit)
  /-- `rst = 1`. -/
  | sys
  deriving DecidableEq, Repr

end Sys2Proof
end

