-- ==== Sys2Proof/Machine/Operands.lean ====
section
/-! DEFINITION. Every operand form of the block: assembling a 16-bit field from two bytes, cutting the payload out of a
frame, the seven field rules of the decoder, and the bodies and frames of the encoder. -/

namespace Sys2Proof.Machine

/-- `be16(h, l) = 256*h + l`, zero-extended (00_scope.md R11; 30_encoding.md R76). -/
def be16 (h l : Byte) : Half := BitVec.ofNat 16 (256 * h.toNat + l.toNat)

/-- `hi8(v) = (v mod 65536) div 256` (00_scope.md R11). -/
def hi8 (v : Nat) : Byte := BitVec.ofNat 8 (v % 65536 / 256)

/-- `lo8(v) = v mod 256` (00_scope.md R11). -/
def lo8 (v : Nat) : Byte := BitVec.ofNat 8 (v % 256)

/-- The length of a frame from its length byte: `TOT = L + OVERHEAD`, which never wraps (30_encoding.md R77). -/
def frameTotal (c : Config) (l : Byte) : Nat := l.toNat + c.overhead

/-- The payload of a frame: everything between the uninterpreted bytes and the trailer,
`F[PAYLOAD_OFFSET .. len(F)-2]` (20_memory.md R53; 42_decoder.md R151). -/
def payloadOf (c : Config) (frame : List Byte) : List Byte :=
  (frame.take (frame.length - 1)).drop c.payloadOffset

/-- CO2 (42_decoder.md R152). -/
def fieldCo2 (h l : Byte) : Half := be16 h l

/-- VOC (42_decoder.md R153). -/
def fieldVoc (h l : Byte) : Half := be16 h l

/-- Humidity in tenths; the division by 10 is not carried out (42_decoder.md R154). -/
def fieldHum (h l : Byte) : Half := be16 h l

/-- Temperature in tenths: the raw word less 500, in 17-bit two's complement (42_decoder.md R155). -/
def fieldTemp (h l : Byte) : Temp := (be16 h l).setWidth 17 - BitVec.ofNat 17 tempOffset

/-- PM2.5, no sentinel (42_decoder.md R156). -/
def fieldPm25 (h l : Byte) : Half := be16 h l

/-- The value port of PM10 (42_decoder.md R158). -/
def fieldPm10 (h l : Byte) : Half := be16 h l

/-- The value port of PM1 (42_decoder.md R159). -/
def fieldPm1 (h l : Byte) : Half := be16 h l

/-- The present flag of PM10 and PM1: a raw word of exactly 0 means absent (42_decoder.md R157). -/
def present (raw : Half) : Bool := raw != 0

/-- `decode(payload) -> Measurement`: the record of a 14-byte payload, by the seven field rules (42_decoder.md R150);
no record of a payload of another length. -/
def decodePayload : List Byte → Option Meas
  | [p0, p1, p2, p3, p4, p5, p6, p7, p8, p9, p10, p11, p12, p13] =>
    some {
      co2 := fieldCo2 p0 p1
      voc := fieldVoc p2 p3
      humX10 := fieldHum p4 p5
      tempX10 := fieldTemp p6 p7
      pm25 := fieldPm25 p8 p9
      pm10 := fieldPm10 p10 p11
      pm10Present := present (be16 p10 p11)
      pm1 := fieldPm1 p12 p13
      pm1Present := present (be16 p12 p13) }
  | _ => none

/-- The measured PM10, absent when the flag is 0 (42_decoder.md R157). -/
def pm10Value (m : Meas) : Option Half := if m.pm10Present then some m.pm10 else none

/-- The measured PM1, absent when the flag is 0 (42_decoder.md R157). -/
def pm1Value (m : Meas) : Option Half := if m.pm1Present then some m.pm1 else none

/-- The humidity a record denotes, in percent: the exact rational `hum_x10 / 10` (42_decoder.md R161). -/
def humidity (m : Meas) : ℚ := (m.humX10.toNat : ℚ) / scale

/-- The temperature a record denotes, in degrees Celsius: the exact rational `temp_x10 / 10` (42_decoder.md R161). -/
def temperature (m : Meas) : ℚ := (m.tempX10.toInt : ℚ) / scale

/-- The display of a count of tenths: sign, integer part, one decimal digit; the sign is taken first and the magnitude
divided (42_decoder.md R161). -/
def displayTenths (v : Int) : Bool × Nat × Nat :=
  (decide (v < 0), v.natAbs / scale, v.natAbs % scale)

/-- ENCODE: `[0x11, len(B)] ++ B ++ [COMPUTE(...)]` (43_encoder.md R181). -/
def txFrame (body : List Byte) : List Byte :=
  let pre := headTx :: BitVec.ofNat 8 body.length :: body
  pre ++ [compute pre]

/-- The body of `startStreaming` (43_encoder.md R182). -/
def bodyStart : List Byte := [0x01, 0x00]

/-- The body of `calibrateCO2`: opcode, high and low byte of the operand modulo 65536 (43_encoder.md R183). -/
def bodyCal (current : Nat) : List Byte :=
  let v := current % 65536
  [0x03, hi8 v, lo8 v]

/-- The body of `manageDustMeasurement`: opcode, `0x02` for true and `0x01` for false, `0x1e` (43_encoder.md R184). -/
def bodyDust (enable : Bool) : List Byte := [0x0c, if enable then 0x02 else 0x01, 0x1e]

/-- The encoder's outputs as a function of its inputs (43_encoder.md R180): the frame `tx_bytes[0 .. tx_len-1]`, empty
(`tx_len = 0`) for the reserved selector (R185). -/
def requestFrame (kind : BitVec 2) (current : Nat) (enable : Bool) : List Byte :=
  if kind = 0 then txFrame bodyStart
  else if kind = 1 then txFrame (bodyCal current)
  else if kind = 2 then txFrame (bodyDust enable)
  else []

/-- What the port `req_current` of `CAL_W` bits carries of a number (43_encoder.md R180; 93 P4; assumption log 16). -/
def portOperand (c : Config) (current : Nat) : Nat := current % 2 ^ c.calW

/-- The encoder's output in a clock period, as a function of what stands on its ports in that period; no frame where the
host does not use it (43_encoder.md R180; assumption log 4). -/
def encoderOut (c : Config) : Option Request → List Byte
  | none => []
  | some r => requestFrame r.kind (portOperand c r.current) r.enable

/-- The reserved selector does not stand on the encoder's ports (43_encoder.md R185). -/
def validRequest : Option Request → Bool
  | none => true
  | some r => r.kind != 3

end Sys2Proof.Machine
end

