-- ==== Sys2Proof/Machine/Flags.lean ====
section
/-! DEFINITION. Every test whose outcome the block records in a flag or an event: the length check, the candidate-frame
property, the running sum, and the event a completed frame gives. -/

namespace Sys2Proof.Machine

/-- `SUM <- (SUM + b) mod 256` (40_framer.md R103, R104). -/
def addByte (sum b : Byte) : Byte := sum + b

/-- LENCHK's test: `len(F) = FRAME_LEN_DEC` (42_decoder.md R151). -/
def lengthOk (c : Config) (frame : List Byte) : Bool := frame.length == c.frameLenDec

/-- What every frame the splitter emits satisfies: it starts with `0x16` and has `F[1] + OVERHEAD` bytes
(40_framer.md R106). -/
def candidate (c : Config) : List Byte → Bool
  | d :: l :: rest => d == delimRx && rest.length + 2 == frameTotal c l
  | _ => false

/-- A frame that is accepted: it starts with `0x16`, its length byte gives the accepted length, which it has, and its bytes
sum to 0 modulo 256 (44_pipeline.md R206(1)). -/
def goodFrame (c : Config) (frame : List Byte) : Bool :=
  frame.head? == some delimRx && frame[1]? == some (BitVec.ofNat 8 (c.frameLenDec - c.overhead)) &&
    lengthOk c frame && total frame % 256 == 0

/-- The event a completed frame gives: checksum first, length second, then the record (30_encoding.md R80, second table;
60_exceptions.md R225). A payload of the accepted length always has a record. -/
def frameEvent (c : Config) (frame : List Byte) : Event :=
  if !verify frame then .corrupt
  else if !lengthOk c frame then .lenErr frame.length
  else match decodePayload (payloadOf c frame) with
    | some r => .meas r
    | none => .none

end Sys2Proof.Machine
end

