-- ==== Sys2Proof/WellFormed.lean ====
section
/-! DEFINITION. Which instructions are well formed: the operand conditions the rules require. -/

namespace Sys2Proof

open Machine

/-- The operand conditions of the rules. SKIP takes every byte but `0x16` (R101); LENCHK takes a verified frame that fits
`BUF` (R151, R24); DEC takes a verified candidate frame of the accepted length (R150); ENC.CAL takes a number that its
port of `CAL_W` bits can carry (R183). Every other operand is free. -/
def Instr.wf (c : Config) : Instr → Bool
  | .skip b => b != delimRx
  | .sof => true
  | .len _ => true
  | .acc _ => true
  | .eof _ => true
  | .compute _ => true
  | .verify _ => true
  | .lenchk frame => Machine.verify frame && decide (frame.length ≤ c.maxFrame)
  | .dec frame => candidate c frame && lengthOk c frame && Machine.verify frame
  | .decCo2 _ _ => true
  | .decVoc _ _ => true
  | .decHum _ _ => true
  | .decTemp _ _ => true
  | .decPm25 _ _ => true
  | .decPm10 _ _ => true
  | .decPm1 _ _ => true
  | .encStart => true
  | .encCal current => decide (current < 2 ^ c.calW)
  | .encDustOn => true
  | .encDustOff => true
  | .encReserved => true
  | .reset => true

end Sys2Proof
end

