-- ==== Sys2Proof/Decode.lean ====
section
/-! DEFINITION. Selecting the operation a step performs, reading an operation from its bytes, and the encoder that writes
the bytes of an operation, from the encodings of spec/opcode_table.json and 30_encoding.md. -/

namespace Sys2Proof

open Machine

/-- Why bytes are no operation at the port they are presented at. -/
inductive DecodeError where
  /-- No byte where one is needed. -/
  | noByte
  /-- More bytes than the operation has. -/
  | extraBytes
  /-- A field operation has two bytes. -/
  | fieldLength
  /-- An outbound frame starts with `0x11` (R72). -/
  | notHead
  /-- The trailer is not the checksum of the bytes before it. -/
  | badChecksum
  /-- No request has this body (R84). -/
  | unknownRequest
  /-- The frame is longer than `BUF` (R24). -/
  | tooLong
  /-- The frame does not start with `0x16`, or its length byte does not give its length (R106). -/
  | notCandidate
  /-- The frame has not the accepted length (R151). -/
  | frameLength
  deriving DecidableEq, Repr

/-- The receive-side selection map, total (30_encoding.md R80; 44_pipeline.md R202). -/
def selectByte (st : FramerState) (last : Bool) (b : Byte) : Instr :=
  match st with
  | .hunt => if b = delimRx then .sof else .skip b
  | .len => .len b
  | .data => if last then .eof b else .acc b

/-- The transmit-side selection map, total (30_encoding.md R81, R84). -/
def selectRequest (kind : BitVec 2) (current : Nat) (enable : Bool) : Instr :=
  if kind = 0 then .encStart
  else if kind = 1 then .encCal current
  else if kind = 2 then (if enable then .encDustOn else .encDustOff)
  else .encReserved

/-- The receive-side operation selected by what stands on the ports: RESET has priority over any byte (60_exceptions.md
R225), and a clock period with `rst = 0` and `rx_valid = 0` selects none (44_pipeline.md R203). -/
def selectRx (st : FramerState) (last : Bool) (p : Input) : Option Instr :=
  if p.rst then some .reset else if p.rxValid then some (selectByte st last p.rxData) else none

/-- The encoder's operation selected by what stands on its ports, if the host uses it (30_encoding.md R81). -/
def selectEnc (c : Config) (p : Input) : Option Instr :=
  p.req.map fun r => selectRequest r.kind (portOperand c r.current) r.enable

/-- The request an outbound frame carries (30_encoding.md R72 to R75, R81). The empty sequence is the reserved selector's:
no frame (R84). -/
def decodeTx : List Byte → Except DecodeError Instr
  | [] => .ok .encReserved
  | head :: rest =>
    if head ≠ headTx then .error .notHead
    else if !verify (head :: rest) then .error .badChecksum
    else match rest with
      | [n, op, a, _] =>
        if [n, op, a] = [0x02, 0x01, 0x00] then .ok .encStart else .error .unknownRequest
      | [n, op, a, b, _] =>
        if [n, op] = [0x03, 0x03] then .ok (.encCal (be16 a b).toNat)
        else if [n, op, a, b] = [0x03, 0x0c, 0x02, 0x1e] then .ok .encDustOn
        else if [n, op, a, b] = [0x03, 0x0c, 0x01, 0x1e] then .ok .encDustOff
        else .error .unknownRequest
      | _ => .error .unknownRequest

/-- The two bytes of a field operation. -/
def decodeField (op : Byte → Byte → Instr) : List Byte → Except DecodeError Instr
  | [h, l] => .ok (op h l)
  | _ => .error .fieldLength

/-- The operation of a function unit on the bytes it is handed. -/
def decodeUnit (c : Config) (bytes : List Byte) : FuncUnit → Except DecodeError Instr
  | .compute => .ok (.compute bytes)
  | .verify => .ok (.verify bytes)
  | .lenchk =>
    if !verify bytes then .error .badChecksum
    else if c.maxFrame < bytes.length then .error .tooLong
    else .ok (.lenchk bytes)
  | .dec =>
    if !candidate c bytes then .error .notCandidate
    else if !lengthOk c bytes then .error .frameLength
    else if !verify bytes then .error .badChecksum
    else .ok (.dec bytes)
  | .co2 => decodeField .decCo2 bytes
  | .voc => decodeField .decVoc bytes
  | .hum => decodeField .decHum bytes
  | .temp => decodeField .decTemp bytes
  | .pm25 => decodeField .decPm25 bytes
  | .pm10 => decodeField .decPm10 bytes
  | .pm1 => decodeField .decPm1 bytes

/-- The operation that bytes presented at a port are, total on any bytes, rejecting by name. -/
def decode (c : Config) : Port → List Byte → Except DecodeError Instr
  | .rx _ _, [] => .error .noByte
  | .rx st last, [b] => .ok (selectByte st last b)
  | .rx _ _, _ :: _ :: _ => .error .extraBytes
  | .tx, bytes => decodeTx bytes
  | .unit u, bytes => decodeUnit c bytes u
  | .sys, [] => .ok .reset
  | .sys, _ :: _ => .error .extraBytes

/-- The port an operation is presented at and its bytes, from the table's `encoding` column. -/
def encode : Instr → Port × List Byte
  | .skip b => (.rx .hunt false, [b])
  | .sof => (.rx .hunt false, [0x16])
  | .len l => (.rx .len false, [l])
  | .acc b => (.rx .data false, [b])
  | .eof b => (.rx .data true, [b])
  | .compute bytes => (.unit .compute, bytes)
  | .verify frame => (.unit .verify, frame)
  | .lenchk frame => (.unit .lenchk, frame)
  | .dec frame => (.unit .dec, frame)
  | .decCo2 h l => (.unit .co2, [h, l])
  | .decVoc h l => (.unit .voc, [h, l])
  | .decHum h l => (.unit .hum, [h, l])
  | .decTemp h l => (.unit .temp, [h, l])
  | .decPm25 h l => (.unit .pm25, [h, l])
  | .decPm10 h l => (.unit .pm10, [h, l])
  | .decPm1 h l => (.unit .pm1, [h, l])
  | .encStart => (.tx, txFrame bodyStart)
  | .encCal current => (.tx, txFrame (bodyCal current))
  | .encDustOn => (.tx, txFrame (bodyDust true))
  | .encDustOff => (.tx, txFrame (bodyDust false))
  | .encReserved => (.tx, [])
  | .reset => (.sys, [])

/-- What the bytes of an operation keep of it: all of it, but for the operand of ENC.CAL, of which the wire carries the
value modulo 65536 only (43_encoder.md R183). -/
def Instr.onWire : Instr → Instr
  | .encCal current => .encCal (current % 65536)
  | i => i

/-- The bytes of a number of `8 * n` bits, bits 7..0 first. -/
def bytesOf : Nat → Nat → List Byte
  | 0, _ => []
  | n + 1, w => BitVec.ofNat 8 w :: bytesOf n (w / 256)

/-- The operation the decoder reads from an instruction whose bits are `w`, the first byte in bits 7..0: one byte is
presented at `rx_data` with the framer hunting, as it is after reset; five and six bytes are an outbound frame
(assumption log 15). -/
def decodeTableWord (nbits w : Nat) : Option Instr :=
  let read := fun (p : Port) => (decode Config.decided p (bytesOf (nbits / 8) w)).toOption
  if nbits = 8 then read (.rx .hunt false)
  else if nbits = 40 ∨ nbits = 48 then read .tx
  else none

/-- A clock period in which a byte is presented. -/
def byteInput (b : Byte) : Input := { rst := false, rxValid := true, rxData := b, req := none }

/-- A clock period in which the encoder alone is used. -/
def requestInput (kind : BitVec 2) (current : Nat) (enable : Bool) : Input :=
  { rst := false, rxValid := false, rxData := 0, req := some { kind := kind, current := current, enable := enable } }

/-- A clock period of RESET. -/
def resetInput : Input := { rst := true, rxValid := false, rxData := 0, req := none }

/-- What stands on the input ports when the host presents an operation that `decodeTableWord` reads. -/
def inputOf : Instr → Option Input
  | .skip b => some (byteInput b)
  | .sof => some (byteInput delimRx)
  | .encStart => some (requestInput 0 0 false)
  | .encCal current => some (requestInput 1 current false)
  | .encDustOn => some (requestInput 2 0 true)
  | .encDustOff => some (requestInput 2 0 false)
  | .encReserved => some (requestInput 3 0 false)
  | .reset => some resetInput
  | .len _ => none
  | .acc _ => none
  | .eof _ => none
  | .compute _ => none
  | .verify _ => none
  | .lenchk _ => none
  | .dec _ => none
  | .decCo2 _ _ => none
  | .decVoc _ _ => none
  | .decHum _ _ => none
  | .decTemp _ _ => none
  | .decPm25 _ _ => none
  | .decPm10 _ _ => none
  | .decPm1 _ _ => none

end Sys2Proof
end

