-- ==== Sys2Proof/Machine/State.lean ====
section
/-! DEFINITION. The machine's state, its reset value, and the reasons a step can stop (10_state.md). -/

namespace Sys2Proof.Machine

/-- Why the machine stops with a fault. No run from reset raises one: every fault is an access the spec says cannot
happen (assumption log 22). -/
inductive Fault where
  /-- A store at an index of `BUF` that does not exist, `MAXFRAME` or above. Raised by `storeByte`, so by ACC in a state
  that breaks the invariant R27; the spec says it cannot happen (R111). Safe. -/
  | bufIndex
  /-- A read of an index of `BUF` below `CNT` that holds no value. Raised by `frameBytes`, so by EOF in a state that
  breaks the invariant R27. Safe. -/
  | bufUnwritten
  /-- DEC is handed a frame whose payload is not 14 bytes, which its precondition excludes (R150, R151). Raised by
  `decodeInto`, so by DEC run by itself on such a frame; never by EOF. Safe. -/
  | payloadLength
  deriving DecidableEq, Repr

/-- Why the machine gives an operation no meaning. -/
inductive Refusal where
  /-- The operation has no meaning in the model yet. Raised by an arm of `exec` alone. Safe. -/
  | notModelled (mnemonic : String)
  /-- The reserved request selector `req_kind = 3`, which a model refuses (R84, R185; 93 U5). Raised by ENC.RESERVED.
  Safe. -/
  | reservedSelector
  deriving DecidableEq, Repr

/-- The frame buffer `BUF` (R24): the bytes that hold a value, by index, strictly rising. An unlisted index reads as no
value: the spec gives none for a byte nothing has written or that is not architectural (93 U3; assumption log 10). -/
abbrev Memory := List Host.Cell

/-- The canonical form of a memory: strictly rising addresses. Since an unlisted address reads as no value, no entry
equals what an unlisted one reads as. -/
def Memory.wf : Memory → Bool
  | [] => true
  | (a, _) :: rest => rest.all (fun cell => decide (a < cell.1)) && Memory.wf rest

/-- The value a function unit returns when it is run by itself (41_checksum.md R130, R131; assumption log 6). -/
inductive UnitOut where
  | none
  /-- What COMPUTE returned. -/
  | byte (b : Byte)
  /-- What VERIFY returned. -/
  | flag (v : Bool)
  deriving DecidableEq, Repr

/-- The machine's state: all of 10_state.md R20, the static configuration, and the fields that carry the step's argument
and results, which the host's step has no other place for (INVENTORY.md, State). -/
structure State where
  /-- The static parameters, written by no step (R251; assumption log 1). -/
  cfg : Config
  /-- `ST` (R26). -/
  st : FramerState
  /-- `CNT` (R22; assumption log 11). -/
  cnt : Nat
  /-- `TOT` (R23; assumption log 11). -/
  tot : Nat
  /-- `SUM` (R25). -/
  sum : Byte
  /-- `BUF` (R24). -/
  buf : Memory
  /-- The fields of `MEAS` (R30), which carry no specified value while `measWritten` is 0 (R31; assumption log 8). -/
  meas : Meas
  /-- `MEAS_WRITTEN` (R31). -/
  measWritten : Bool
  /-- `STATUS.LENERR`, sticky (R28c, R29). -/
  lenErr : Bool
  /-- Model's own: the clock periods' input ports not yet consumed, oldest first (assumption log 2). -/
  input : List Input
  /-- Model's own: the event of the last clock period (R200; assumption log 3). -/
  event : Event
  /-- Model's own: the encoder's output in the last clock period, `tx_bytes[0 .. tx_len-1]` (R180; assumption log 4). -/
  tx : List Byte
  /-- Model's own: what COMPUTE or VERIFY last returned when run by itself (assumption log 6). -/
  unitOut : UnitOut
  /-- Model's own: how many free values of `MEAS` have been drawn (assumption log 9). -/
  freeCtr : Nat
  deriving DecidableEq, Repr

/-- The value the model names for the fields of `MEAS` before anything has written them (assumption log 8): DESIGN
CHOICE, all zero; the spec gives none (R31, R34). -/
def unwrittenMeas : Meas :=
  { co2 := 0, voc := 0, humX10 := 0, tempX10 := 0, pm25 := 0, pm10 := 0, pm10Present := false, pm1 := 0,
    pm1Present := false }

/-- The machine right after reset (10_state.md R34; 70_reset_and_hazards.md R250), in the decided profile, with nothing
presented on its input ports. -/
def State.reset : State :=
  { cfg := Config.decided
    st := .hunt
    cnt := 0
    tot := 0
    sum := 0
    buf := []
    meas := unwrittenMeas
    measWritten := false
    lenErr := false
    input := []
    event := .none
    tx := []
    unitOut := .none
    freeCtr := 0 }

end Sys2Proof.Machine
end

