-- ==== Sys2Proof/Machine/Ops.lean ====
section
/-! DEFINITION. The named operations over registers and memory, the one operation that raises an exception event, the
pipeline on a completed frame, and the fetch of the next operation. -/

namespace Sys2Proof.Machine

/-- What a meaning answers. -/
abbrev Result := Host.Outcome State Fault Refusal

/-- Go on from a next state; a fault or a refusal ends the step. -/
def andThen (r : Result) (k : State → Result) : Result :=
  match r with
  | .next s => k s
  | .fault f => .fault f
  | .refused f => .refused f

/-- Write the framer registers `ST`, `CNT`, `TOT`, `SUM`. -/
def setFramer (st : FramerState) (cnt tot : Nat) (sum : Byte) (s : State) : State :=
  { s with st := st, cnt := cnt, tot := tot, sum := sum }

/-- Write `BUF`. -/
def setBuf (m : Memory) (s : State) : State := { s with buf := m }

/-- Write the record `MEAS`. -/
def setMeas (m : Meas) (s : State) : State := { s with meas := m }

/-- Write `MEAS_WRITTEN`. -/
def setWritten (v : Bool) (s : State) : State := { s with measWritten := v }

/-- Write `STATUS.LENERR`. -/
def setLenErr (v : Bool) (s : State) : State := { s with lenErr := v }

/-- Report the event of the step: exactly one per step (44_pipeline.md R200). -/
def setEvent (e : Event) (s : State) : State := { s with event := e }

/-- Drive the encoder's output. -/
def setTx (frame : List Byte) (s : State) : State := { s with tx := frame }

/-- Drive the output of a function unit that is run by itself. -/
def setUnitOut (v : UnitOut) (s : State) : State := { s with unitOut := v }

/-- Replace what is presented on the input ports. -/
def setInput (l : List Input) (s : State) : State := { s with input := l }

/-- Count the free values drawn. -/
def setFreeCtr (n : Nat) (s : State) : State := { s with freeCtr := n }

/-- `BUF[a]`, one byte; no value where nothing is listed (20_memory.md R59). -/
def memRead : Memory → Nat → Option Byte
  | [], _ => none
  | (x, v) :: rest, a => if a = x then some v else memRead rest a

/-- `BUF[a] <- b`, one byte, keeping the canonical form. -/
def memWrite : Memory → Nat → Byte → Memory
  | [], a, b => [(a, b)]
  | (x, v) :: rest, a, b =>
    if a < x then (a, b) :: (x, v) :: rest
    else if a = x then (a, b) :: rest
    else (x, v) :: memWrite rest a b

/-- `MemWrite(a, 1, b)` (00_scope.md R12): indices `0 .. MAXFRAME-1` exist and no others (10_state.md R24). -/
def storeByte (a : Nat) (b : Byte) (s : State) : Result :=
  if a < s.cfg.maxFrame then .next (setBuf (memWrite s.buf a b) s) else .fault .bufIndex

/-- `BUF[0 .. CNT-1]`, where every one of these bytes holds a value. -/
def frameBytes (s : State) : Option (List Byte) :=
  (List.range s.cnt).mapM (memRead s.buf)

/-- Does the next byte complete the frame: `CNT + 1 = TOT` (40_framer.md R105). -/
def lastByte (s : State) : Bool := s.cnt + 1 == s.tot

/-- The framer registers at their idle values, which are their reset values (40_framer.md R105; 70 R250). With `CNT = 0`
no byte of `BUF` is architectural, and none stays listed (10_state.md R24; assumption log 10). -/
def toIdle (s : State) : State := setBuf [] (setFramer .hunt 0 0 0 s)

/-- End an operation with the event `NONE`. -/
def quiet (s : State) : Result := .next (setEvent .none s)

/-- The block's two exception events (60_exceptions.md R220). -/
inductive BlockException where
  /-- R221. -/
  | corrupt
  /-- R222, with the length of the frame. -/
  | lenErr (n : Nat)
  deriving DecidableEq, Repr

/-- Raise an exception event: what it changes beyond the framer registers, exactly (60_exceptions.md R226). Nothing is
saved, control goes nowhere, and there is no return (R228). -/
def raiseException : BlockException → State → State
  | .corrupt, s => setEvent .corrupt s
  | .lenErr n, s => setEvent (.lenErr n) (setLenErr true s)

/-- Write the whole record at once and emit it (42_decoder.md R150; 20_memory.md R59). -/
def writeMeas (r : Meas) (s : State) : State := setEvent (.meas r) (setWritten true (setMeas r s))

/-- DEC's work on a frame: the record of its payload (42_decoder.md R150). -/
def decodeInto (frame : List Byte) (s : State) : Result :=
  match decodePayload (payloadOf s.cfg frame) with
  | some r => .next (writeMeas r s)
  | none => .fault .payloadLength

/-- `Pipeline(F)`: VERIFY, then LENCHK, then DEC, stopping at the first failure (44_pipeline.md R201). -/
def pipeline (frame : List Byte) (s : State) : Result :=
  if !verify frame then .next (raiseException .corrupt s)
  else if !lengthOk s.cfg frame then .next (raiseException (.lenErr frame.length) s)
  else decodeInto frame s

/-- Drive the encoder's output with the frame of a body (43_encoder.md R181). The encoder reports no event and writes no
register (R180, R182). -/
def transmit (body : List Byte) (s : State) : Result := .next (setTx (txFrame body) s)

/-- The two operations of a clock period, the encoder's and the receive side's, and the state they run on. -/
structure Fetched where
  enc : Option Instr
  rx : Option Instr
  state : State

/-- Fetch: the operations selected by what stands on the input ports in the oldest clock period not yet consumed, and the
state with that period consumed and the encoder's output of the period before it gone, since the encoder holds nothing
(20_memory.md R52). Where nothing is presented the clock period is idle and the encoder not used. -/
def fetch (s : State) : Fetched :=
  match s.input with
  | [] => { enc := none, rx := none, state := setTx [] s }
  | p :: rest =>
    { enc := selectEnc s.cfg p, rx := selectRx s.st (lastByte s) p, state := setTx [] (setInput rest s) }

/-- `s` with an operation that `decodeTableWord` reads presented as the next input. A receive byte is read with the framer
hunting, so the framer is put at its idle values, which are its reset values (assumption log 15). -/
def presentInstr (i : Instr) (s : State) : State :=
  match inputOf i with
  | some p => setInput (p :: s.input) (if p.rxValid then toIdle s else s)
  | none => s

/-- `s` with the instruction word presented as the next input, where the word is one. -/
def presentWord (s : State) (nbits w : Nat) : State :=
  match decodeTableWord nbits w with
  | some i => presentInstr i s
  | none => s

end Sys2Proof.Machine
end

