-- ==== Sys2Proof/Machine/Decoder.lean ====
section
/-! DEFINITION. The meanings of the Measurement Decoder's operations (42_decoder.md). A field operation writes its own
field of `MEAS` (assumption log 7). -/

namespace Sys2Proof.Machine

/-- LENCHK: on failure the sticky bit and `LENERR(len(F))`; on success nothing (R151). -/
def execLenchk (frame : List Byte) (s : State) : Result :=
  if lengthOk s.cfg frame then quiet s else .next (raiseException (.lenErr frame.length) s)

/-- DEC (R150). -/
def execDec (frame : List Byte) (s : State) : Result := decodeInto frame s

/-- DEC.CO2 (R152). -/
def execDecCo2 (h l : Byte) (s : State) : Result :=
  quiet (setMeas { s.meas with co2 := fieldCo2 h l } s)

/-- DEC.VOC (R153). -/
def execDecVoc (h l : Byte) (s : State) : Result :=
  quiet (setMeas { s.meas with voc := fieldVoc h l } s)

/-- DEC.HUM (R154). -/
def execDecHum (h l : Byte) (s : State) : Result :=
  quiet (setMeas { s.meas with humX10 := fieldHum h l } s)

/-- DEC.TEMP (R155). -/
def execDecTemp (h l : Byte) (s : State) : Result :=
  quiet (setMeas { s.meas with tempX10 := fieldTemp h l } s)

/-- DEC.PM2_5 (R156). -/
def execDecPm25 (h l : Byte) (s : State) : Result :=
  quiet (setMeas { s.meas with pm25 := fieldPm25 h l } s)

/-- DEC.PM10: value and present flag (R158). -/
def execDecPm10 (h l : Byte) (s : State) : Result :=
  quiet (setMeas { s.meas with pm10 := fieldPm10 h l, pm10Present := present (be16 h l) } s)

/-- DEC.PM1: value and present flag (R159). -/
def execDecPm1 (h l : Byte) (s : State) : Result :=
  quiet (setMeas { s.meas with pm1 := fieldPm1 h l, pm1Present := present (be16 h l) } s)

end Sys2Proof.Machine
end

