-- ==== Sys2Proof/Machine/Encoder.lean ====
section
/-! DEFINITION. The meanings of the Request Encoder's operations (43_encoder.md). They read and write no register of
10_state.md and report no event; the frame stands on the encoder's output (assumption log 4). -/

namespace Sys2Proof.Machine

/-- ENC.START (R182). -/
def execEncStart (s : State) : Result := transmit bodyStart s

/-- ENC.CAL (R183). -/
def execEncCal (current : Nat) (s : State) : Result := transmit (bodyCal current) s

/-- ENC.DUST, enable true (R184). -/
def execEncDustOn (s : State) : Result := transmit (bodyDust true) s

/-- ENC.DUST, enable false (R184). -/
def execEncDustOff (s : State) : Result := transmit (bodyDust false) s

/-- ENC.RESERVED: "A model refuses this input rather than give it a frame" (R185; 93 U5; assumption log 14). -/
def execEncReserved (_ : State) : Result := .refused .reservedSelector

end Sys2Proof.Machine
end

