-- ==== Sys2Proof/Machine/Framer.lean ====
section
/-! DEFINITION. The meanings of the Frame Splitter's operations (40_framer.md). Each applies its rule's pseudocode; the
state conditions a rule `requires` are what selects it (30_encoding.md R80). -/

namespace Sys2Proof.Machine

/-- SKIP: no register is written (R101). -/
def execSkip (_ : Byte) (s : State) : Result := quiet s

/-- SOF (R102). -/
def execSof (s : State) : Result :=
  andThen (storeByte 0 delimRx s) fun t => quiet (setFramer .len 1 0 delimRx t)

/-- LEN (R103). -/
def execLen (l : Byte) (s : State) : Result :=
  andThen (storeByte 1 l s) fun t => quiet (setFramer .data 2 (frameTotal t.cfg l) (addByte t.sum l) t)

/-- ACC (R104). -/
def execAcc (b : Byte) (s : State) : Result :=
  andThen (storeByte s.cnt b s) fun t => quiet (setFramer t.st (t.cnt + 1) t.tot (addByte t.sum b) t)

/-- EOF: the candidate frame is `BUF[0 .. CNT-1] ++ [c]`; the framer returns to its idle values and the pipeline runs on
the frame in the same step (R105). -/
def execEof (c : Byte) (s : State) : Result :=
  match frameBytes s with
  | some bytes => pipeline (bytes ++ [c]) (toIdle s)
  | none => .fault .bufUnwritten

end Sys2Proof.Machine
end

