-- ==== Sys2Proof/Machine/System.lean ====
section
/-! DEFINITION. The block's one system operation, RESET (44_pipeline.md R207; 70_reset_and_hazards.md R250). -/

namespace Sys2Proof.Machine

/-- RESET (R250): the framer, `STATUS.LENERR` and `MEAS_WRITTEN` to their reset values, event `NONE`; the fields of
`MEAS` are unspecified afterwards and take a free value (93 U1; assumption log 9). The configuration and the encoder are
not touched (R251). -/
def execReset (s : State) : Result :=
  let t := setWritten false (setLenErr false (toIdle s))
  quiet (setFreeCtr (s.freeCtr + 1) (setMeas (Config.freeMeas s.freeCtr) t))

end Sys2Proof.Machine
end

