-- ==== Sys2Proof/Machine/Validator.lean ====
section
/-! DEFINITION. The meanings of the Checksum Validator's operations run by themselves (41_checksum.md). They write no
register and raise no event; the value they return stands on the unit's output (assumption log 6). -/

namespace Sys2Proof.Machine

/-- COMPUTE (R130). -/
def execCompute (bytes : List Byte) (s : State) : Result := quiet (setUnitOut (.byte (compute bytes)) s)

/-- VERIFY (R131): raises nothing itself. -/
def execVerify (frame : List Byte) (s : State) : Result := quiet (setUnitOut (.flag (verify frame)) s)

end Sys2Proof.Machine
end

