-- ==== Sys2Proof/Machine/Dispatch.lean ====
section
/-! DEFINITION. One arm per constructor of Instr, each a direct call of that operation's meaning. -/

namespace Sys2Proof.Machine

def exec (i : Instr) (s : State) : Host.Outcome State Fault Refusal :=
  match i with
  | .skip b => Sys2Proof.Machine.execSkip b s
  | .sof => Sys2Proof.Machine.execSof s
  | .len l => Sys2Proof.Machine.execLen l s
  | .acc b => Sys2Proof.Machine.execAcc b s
  | .eof c => Sys2Proof.Machine.execEof c s
  | .compute bytes => Sys2Proof.Machine.execCompute bytes s
  | .verify frame => Sys2Proof.Machine.execVerify frame s
  | .lenchk frame => Sys2Proof.Machine.execLenchk frame s
  | .dec frame => Sys2Proof.Machine.execDec frame s
  | .decCo2 h l => Sys2Proof.Machine.execDecCo2 h l s
  | .decVoc h l => Sys2Proof.Machine.execDecVoc h l s
  | .decHum h l => Sys2Proof.Machine.execDecHum h l s
  | .decTemp h l => Sys2Proof.Machine.execDecTemp h l s
  | .decPm25 h l => Sys2Proof.Machine.execDecPm25 h l s
  | .decPm10 h l => Sys2Proof.Machine.execDecPm10 h l s
  | .decPm1 h l => Sys2Proof.Machine.execDecPm1 h l s
  | .encStart => Sys2Proof.Machine.execEncStart s
  | .encCal current => Sys2Proof.Machine.execEncCal current s
  | .encDustOn => Sys2Proof.Machine.execEncDustOn s
  | .encDustOff => Sys2Proof.Machine.execEncDustOff s
  | .encReserved => Sys2Proof.Machine.execEncReserved s
  | .reset => Sys2Proof.Machine.execReset s

end Sys2Proof.Machine
end

