-- ==== Sys2Proof/Machine/Period.lean ====
section
/-! DEFINITION. What one clock period does: the encoder's operation and the receive side's. -/

namespace Sys2Proof.Machine

/-- The encoder's part of a clock period: nothing where the host does not use it. -/
def runEncoder (op : Option Instr) (s : State) : Result :=
  match op with
  | none => .next s
  | some i => exec i s

/-- The receive side's part of a clock period: with `rst = 0` and `rx_valid = 0` no state changes and all strobes are 0
(44_pipeline.md R203). -/
def runReceive (op : Option Instr) (s : State) : Result :=
  match op with
  | none => quiet s
  | some i => exec i s

/-- One clock period. The encoder is a function of its ports with no state and no step of its own (00_scope.md R8), so its
output stands beside whatever the receive side does in the same period, RESET included; the order of the two cannot be seen,
as neither reads what the other writes (43_encoder.md R187). -/
def clockPeriod (s : State) : Result :=
  let f := fetch s
  andThen (runEncoder f.enc f.state) (runReceive f.rx)

end Sys2Proof.Machine
end

