-- ==== Sys2Proof/Machine/Step.lean ====
section
/-! DEFINITION. The block's one step, and presenting an instruction word to it. -/

namespace Sys2Proof.Machine

/-- One clock period (44_pipeline.md R202, R203): what stands on the input ports is consumed and the operations it selects
run. In a clock period that selects no operation no state changes and all strobes are 0. -/
def step (s : State) : Host.Outcome State Fault Refusal := clockPeriod s

/-- `s` with the instruction word presented where `step` takes its next operation (assumption log 15). -/
def State.withFetchWord (s : State) (nbits w : Nat) : State := presentWord s nbits w

end Sys2Proof.Machine
end

