-- ==== Sys2Proof/Machine/Ports.lean ====
section
/-! DEFINITION. The block's output ports, read off the state, at the widths the spec gives them (44_pipeline.md R203,
43_encoder.md R180), and the registers at their widths. -/

namespace Sys2Proof.Machine

/-- The 2-bit code of `ST` (10_state.md R26). -/
def stCode : FramerState → BitVec 2
  | .hunt => 0
  | .len => 1
  | .data => 2

/-- `CNT` as its 9-bit register (10_state.md R22). -/
def cntReg (s : State) : BitVec 9 := BitVec.ofNat 9 s.cnt

/-- `TOT` as its 9-bit register (10_state.md R23). -/
def totReg (s : State) : BitVec 9 := BitVec.ofNat 9 s.tot

/-- `STATUS`: bit 0 is `LENERR`, there are no other bits (10_state.md R29). -/
def statusReg (s : State) : BitVec 1 := BitVec.ofBool s.lenErr

/-- `status_lenerr` (R203). -/
def statusLenerr (s : State) : Bool := s.lenErr

/-- The 2-bit event code (60_exceptions.md R220). -/
def eventCode : Event → BitVec 2
  | .none => 0
  | .corrupt => 1
  | .lenErr _ => 2
  | .meas _ => 3

/-- `meas_valid`: 1 exactly in the step whose event is `MEAS` (R203). -/
def measValid (s : State) : Bool := eventCode s.event == 3

/-- `frame_drop`: 1 exactly in the step whose event is `CORRUPT` (R203). -/
def frameDrop (s : State) : Bool := eventCode s.event == 1

/-- `len_err`: 1 exactly in the step whose event is `LENERR` (R203). -/
def lenErrStrobe (s : State) : Bool := eventCode s.event == 2

/-- `len_err_n`, 9 bits, meaningful when `len_err = 1` only (R203; 93 U3). DESIGN CHOICE, unsafe: of a frame of 512 bytes or
more, which needs `OVERHEAD` above 256 and which the spec says nothing of, it shows the length modulo 512; the event itself
holds the whole length (assumption log 11). -/
def lenErrN (s : State) : Option (BitVec 9) :=
  match s.event with
  | .lenErr n => some (BitVec.ofNat 9 n)
  | _ => none

/-- What a host may read of `MEAS`: the record once one has been written, no value before (10_state.md R31). -/
def measurement (s : State) : Option Meas := if s.measWritten then some s.meas else none

/-- `tx_len`, 3 bits (43_encoder.md R180). -/
def txLen (s : State) : BitVec 3 := BitVec.ofNat 3 s.tx.length

end Sys2Proof.Machine
end

