-- ==== Sys2Proof/Machine/Run.lean ====
section
/-! DEFINITION. Runs on a list of bytes (44_pipeline.md R205), and the splitter as a function on byte lists
(40_framer.md R112). -/

namespace Sys2Proof.Machine

/-- `step(s, b)`: the block's reaction to one input byte (44_pipeline.md R202). -/
def rxStep (s : State) (b : Byte) : Result := exec (selectByte s.st (lastByte s) b) s

/-- `run(s, S)`: the final state and the events, one per byte (44_pipeline.md R205). -/
def run (s : State) : List Byte → Host.Outcome (State × List Event) Fault Refusal
  | [] => .next (s, [])
  | b :: rest =>
    match rxStep s b with
    | .next t =>
      match run t rest with
      | .next (u, events) => .next (u, t.event :: events)
      | .fault f => .fault f
      | .refused f => .refused f
    | .fault f => .fault f
    | .refused f => .refused f

/-- The events of a run that are not `NONE`: one for each completed frame (44_pipeline.md R206(3)). -/
def completed (events : List Event) : List Event := events.filter fun e => decide (e ≠ .none)

/-- The measurements of a run: its `MEAS` events in order (44_pipeline.md R205). -/
def measurements (events : List Event) : List Meas :=
  events.filterMap fun e =>
    match e with
    | .meas r => some r
    | _ => none

/-- `split` and `rest` together, on a byte list no longer than the fuel (40_framer.md R112). -/
def splitFuel (c : Config) : Nat → List Byte → List (List Byte) × List Byte
  | 0, bytes => ([], bytes)
  | _ + 1, [] => ([], [])
  | fuel + 1, b :: bytes =>
    if b ≠ delimRx then splitFuel c fuel bytes
    else match bytes with
      | [] => ([], [b])
      | l :: more =>
        let n := frameTotal c l
        if n ≤ (b :: l :: more).length then
          let later := splitFuel c fuel ((b :: l :: more).drop n)
          ((b :: l :: more).take n :: later.1, later.2)
        else ([], b :: l :: more)

/-- `split(S)`: the candidate frames of a byte list fed to a hunting block (40_framer.md R112). -/
def split (c : Config) (bytes : List Byte) : List (List Byte) := (splitFuel c bytes.length bytes).1

/-- `rest(S)`: the partial frame left at the end (40_framer.md R112). -/
def leftOver (c : Config) (bytes : List Byte) : List Byte := (splitFuel c bytes.length bytes).2

end Sys2Proof.Machine
end

