-- ==== Sys2Proof/Safety.lean ====
section
/-! DEFINITION. The state invariant (10_state.md R27) and what a clean run is, in the terms the statements use. -/

namespace Sys2Proof.Machine

/-- The bytes listed in `BUF`, in order of index. -/
def bufBytes (s : State) : List Byte := s.buf.map Prod.snd

/-- `BUF` lists exactly the indices `0 .. CNT-1` (10_state.md R24). -/
def bufInv (s : State) : Bool := s.buf.map Prod.fst == List.range s.cnt

/-- `TOT = BUF[1] + OVERHEAD` (10_state.md R27). -/
def totInv (s : State) : Bool :=
  match bufBytes s with
  | _ :: l :: _ => s.tot == frameTotal s.cfg l
  | _ => false

/-- The state invariant, its three disjuncts by the value of `ST` (10_state.md R27). -/
def framerInv (s : State) : Bool :=
  bufInv s &&
    match s.st with
    | .hunt => s.cnt == 0 && s.tot == 0 && s.sum == 0
    | .len => s.cnt == 1 && s.tot == 0 && bufBytes s == [delimRx] && s.sum == delimRx
    | .data =>
      decide (2 ≤ s.cnt) && decide (s.cnt < s.tot) && totInv s && (bufBytes s).head? == some delimRx &&
        s.sum.toNat == total (bufBytes s) % 256

/-- A state of a block with a well-formed configuration (00_scope.md R7) that meets R27. -/
def State.inv (s : State) : Bool := s.cfg.wf && framerInv s

/-- The framer registers at their idle values, nothing buffered (44_pipeline.md R206(4)). -/
def idle (s : State) : Bool :=
  s.st == .hunt && s.cnt == 0 && s.tot == 0 && s.sum == 0 && s.buf == []

/-- A block that ran cleanly: no length error since reset (60_exceptions.md R222). -/
def clean (s : State) : Bool := !s.lenErr

end Sys2Proof.Machine
end

