-- ==== Sys2Proof/Certificates/Slice0/Obligations.lean ====
section
/-! DEFINITION. The statements for the provers, each from the rules of spec/ its docstring names. -/

open Sys2Proof Sys2Proof.Machine

/-! ### The framer (40_framer.md) -/

/-- R101: a byte other than `0x16`, received while hunting, selects SKIP, and SKIP writes no register and reports `NONE`. -/
def Obligations.SkipWritesNoRegister : Prop :=
  (∀ (s : State) (b : Byte), exec (.skip b) s = .next { s with event := .none }) ∧
  (∀ (s : State) (b : Byte), s.st = .hunt → b ≠ 0x16 → rxStep s b = exec (.skip b) s)

/-- R102: `0x16` received while hunting selects SOF, which stores it at `BUF[0]`, sets `CNT`, `SUM`, `TOT` and `ST`, and
changes nothing else; every other byte of `BUF` reads as before. That the operation applies its writes in a state that
does not select it is the model's choice (assumption log 20). -/
def Obligations.SofOpensFrame : Prop :=
  (∀ s : State, ∃ m : Memory,
    exec .sof s = .next { s with st := .len, cnt := 1, tot := 0, sum := 0x16, buf := m, event := .none } ∧
    memRead m 0 = some 0x16 ∧ ∀ a, a ≠ 0 → memRead m a = memRead s.buf a) ∧
  (∀ s : State, s.st = .hunt → rxStep s 0x16 = exec .sof s)

/-- R103: any byte received in `LEN` selects LEN, which stores it at `BUF[1]` and sets `TOT` to it plus `OVERHEAD`; with
`OVERHEAD` at least 3 a further byte is always awaited. That the operation applies its writes in a state that does not
select it is the model's choice (assumption log 20). -/
def Obligations.LenSetsFrameTotal : Prop :=
  (∀ (s : State) (l : Byte), ∃ m : Memory,
    exec (.len l) s = .next
      { s with st := .data, cnt := 2, tot := l.toNat + s.cfg.overhead, sum := s.sum + l, buf := m, event := .none } ∧
    memRead m 1 = some l ∧ (∀ a, a ≠ 1 → memRead m a = memRead s.buf a) ∧
    (3 ≤ s.cfg.overhead → 2 < l.toNat + s.cfg.overhead)) ∧
  (∀ (s : State) (l : Byte), s.st = .len → rxStep s l = exec (.len l) s)

/-- R104: any byte received in `DATA` with `CNT + 1 < TOT` selects ACC, which appends it at `BUF[CNT]`; every byte value
is data, `0x16` included, and a clock period without a byte leaves the partial frame as it is. That the operation
applies its writes in a state that does not select it is the model's choice (assumption log 20). -/
def Obligations.AccAppendsByte : Prop :=
  (∀ (s : State) (b : Byte), s.cnt < s.cfg.maxFrame → ∃ m : Memory,
    exec (.acc b) s = .next { s with cnt := s.cnt + 1, sum := s.sum + b, buf := m, event := .none } ∧
    memRead m s.cnt = some b ∧ ∀ a, a ≠ s.cnt → memRead m a = memRead s.buf a) ∧
  (∀ (s : State) (b : Byte), s.st = .data → s.cnt + 1 < s.tot → rxStep s b = exec (.acc b) s) ∧
  (∀ (s : State) (b : Byte) (q : Option Request) (more : List Input), s.st = .data → validRequest q = true →
    s.input = ⟨false, false, b, q⟩ :: more →
    ∃ t, step s = .next t ∧ t.st = .data ∧ t.cnt = s.cnt ∧ t.tot = s.tot ∧ t.sum = s.sum ∧ t.buf = s.buf)

/-- R105: any byte received in `DATA` with `CNT + 1 = TOT` selects EOF, which hands `BUF[0 .. CNT-1] ++ [c]`, a frame of
`TOT` bytes, to the pipeline, returns the framer to its idle values whatever the frame's fate, and reports the pipeline's
event, one of `CORRUPT`, `LENERR(TOT)` and `MEAS`, never `NONE`. -/
def Obligations.EofEmitsCandidateFrame : Prop :=
  (∀ (s : State) (c : Byte), s.inv = true → s.st = .data → s.cnt + 1 = s.tot →
    ∃ t, exec (.eof c) s = .next t ∧ idle t = true ∧ (bufBytes s ++ [c]).length = s.tot ∧
      t.event = frameEvent s.cfg (bufBytes s ++ [c]) ∧
      (t.event = .corrupt ∨ t.event = .lenErr s.tot ∨ ∃ r, t.event = .meas r) ∧
      t.cfg = s.cfg ∧ t.input = s.input ∧ t.tx = s.tx ∧ t.unitOut = s.unitOut ∧ t.freeCtr = s.freeCtr) ∧
  (∀ (s : State) (c : Byte), s.st = .data → s.cnt + 1 = s.tot → rxStep s c = exec (.eof c) s)

/-- R221, R225: a completed frame that does not verify is dropped, whatever its length: the framer registers return to
their idle values, the event is `CORRUPT`, and nothing else changes, `MEAS`, `MEAS_WRITTEN` and `STATUS` included. -/
def Obligations.CorruptFrameIsDropped : Prop :=
  ∀ (s : State) (c : Byte), s.inv = true → s.st = .data → s.cnt + 1 = s.tot → verify (bufBytes s ++ [c]) = false →
    exec (.eof c) s = .next { s with st := .hunt, cnt := 0, tot := 0, sum := 0, buf := [], event := .corrupt }

/-- R222: a completed frame that verifies but has not the accepted length sets `STATUS.LENERR` and reports `LENERR(n)`
with its length `n`; `MEAS` and `MEAS_WRITTEN` are unchanged. -/
def Obligations.WrongLengthSetsLenErr : Prop :=
  ∀ (s : State) (c : Byte), s.inv = true → s.st = .data → s.cnt + 1 = s.tot → verify (bufBytes s ++ [c]) = true →
    s.tot ≠ s.cfg.frameLenDec →
    exec (.eof c) s = .next
      { s with st := .hunt, cnt := 0, tot := 0, sum := 0, buf := [], lenErr := true, event := .lenErr s.tot }

/-- R201, R150: a completed frame that verifies and has the accepted length is decoded in the same step: `MEAS` takes the
record of its payload, `MEAS_WRITTEN` becomes 1, the event is `MEAS` of that record, and `STATUS` is unchanged. -/
def Obligations.GoodFrameIsMeasured : Prop :=
  ∀ (s : State) (c : Byte), s.inv = true → s.st = .data → s.cnt + 1 = s.tot → verify (bufBytes s ++ [c]) = true →
    s.tot = s.cfg.frameLenDec →
    ∃ r, decodePayload (((bufBytes s).drop s.cfg.payloadOffset)) = some r ∧
      exec (.eof c) s = .next
        { s with st := .hunt, cnt := 0, tot := 0, sum := 0, buf := [], meas := r, measWritten := true, event := .meas r }

/-- R201: the pipeline is VERIFY, then LENCHK, then DEC, stopping at the first failure, each with its own effect. R201
gives the order and the effects; that a passed LENCHK run by itself leaves the event `NONE` is the model's choice
(assumption log 3). -/
def Obligations.PipelineStopsAtTheFirstFailure : Prop :=
  ∀ (s : State) (frame : List Byte),
    (verify frame = false → pipeline frame s = .next { s with event := .corrupt }) ∧
    (verify frame = true → frame.length ≠ s.cfg.frameLenDec →
      pipeline frame s = exec (.lenchk frame) s ∧
      pipeline frame s = .next { s with lenErr := true, event := .lenErr frame.length }) ∧
    (verify frame = true → frame.length = s.cfg.frameLenDec →
      exec (.lenchk frame) s = .next { s with event := .none } ∧ pipeline frame s = exec (.dec frame) s ∧
      ∃ r, pipeline frame s = .next { s with meas := r, measWritten := true, event := .meas r })

/-- R24, R111, R150, R224: the accesses the spec says cannot happen fault by name in the model (assumption logs 20, 22):
ACC outside `BUF`, EOF where a byte below `CNT` holds no value, DEC on a frame that has not the accepted length. -/
def Obligations.ImpossibleAccessesFault : Prop :=
  (∀ (s : State) (b : Byte), s.cfg.maxFrame ≤ s.cnt → exec (.acc b) s = .fault .bufIndex) ∧
  (∀ (s : State) (c : Byte) (a : Nat), a < s.cnt → memRead s.buf a = none → exec (.eof c) s = .fault .bufUnwritten) ∧
  (∀ (s : State) (frame : List Byte), frame.length ≠ s.cfg.frameLenDec → exec (.dec frame) s = .fault .payloadLength)

/-! ### The checksum validator (41_checksum.md) -/

/-- R130: COMPUTE returns `(-sum) mod 256` of the unbounded sum and writes no register; its value stands on the unit's
output (assumption log 6). That the event is `NONE` when it is run by itself is the model's choice (assumption log 3).
-/
def Obligations.ComputeNegatesTheSum : Prop :=
  ∀ (s : State) (bytes : List Byte), ∃ c : Byte,
    exec (.compute bytes) s = .next { s with unitOut := .byte c, event := .none } ∧
    (c.toNat : Int) = (-(total bytes : Int)) % 256 ∧ c.toNat = (256 - total bytes % 256) % 256

/-- R131: VERIFY is true exactly of a frame, not empty, whose bytes sum to 0 modulo 256, and writes no register; its
value stands on the unit's output (assumption log 6). That the event is `NONE` when it is run by itself is the model's
choice (assumption log 3). -/
def Obligations.VerifyIsTheZeroSumTest : Prop :=
  ∀ (s : State) (frame : List Byte),
    exec (.verify frame) s =
      .next { s with unitOut := .flag (decide (frame ≠ [] ∧ total frame % 256 = 0)), event := .none }

/-- R132: a frame verifies exactly when its trailer is COMPUTE of the bytes before it. -/
def Obligations.VerifyIffTrailerIsCompute : Prop :=
  ∀ (bytes : List Byte) (c : Byte), verify (bytes ++ [c]) = true ↔ c = compute bytes

/-- R133: with the running sum, VERIFY of the completed frame is `(SUM + b) mod 256 = 0`. -/
def Obligations.RunningSumDecidesVerify : Prop :=
  ∀ (s : State) (b : Byte), s.inv = true → s.st = .data → (verify (bufBytes s ++ [b]) = true ↔ s.sum + b = 0)

/-- R135: the laws of the checksum. -/
def Obligations.ChecksumLaws : Prop :=
  (∀ bs : List Byte, (compute bs).toNat = (256 - total bs % 256) % 256) ∧
  (∀ bs : List Byte, (total bs + (compute bs).toNat) % 256 = 0) ∧
  (∀ as bs : List Byte, (compute (as ++ bs)).toNat = ((compute as).toNat + (compute bs).toNat) % 256) ∧
  (∀ bs : List Byte, compute (bs ++ [compute bs]) = 0) ∧
  (∀ as bs : List Byte, as.Perm bs → compute as = compute bs) ∧
  (∀ bs : List Byte, verify (bs ++ [compute bs]) = true) ∧
  (∀ n : Int, ~~~n + 1 = -n)

/-- R136: with its length held fixed, a verifying frame with exactly one byte changed never verifies; a frame with its
bytes in another order still does, which is of the known false-negative class. -/
def Obligations.SingleByteTamperIsDetected : Prop :=
  (∀ (frame : List Byte) (i : Nat) (y : Byte) (h : i < frame.length), verify frame = true → y ≠ frame[i] →
    verify (frame.set i y) = false) ∧
  (∀ frame other : List Byte, frame.Perm other → verify frame = true → verify other = true)

/-! ### The measurement decoder (42_decoder.md) -/

/-- R151: the check passes exactly when the payload has 14 bytes, that is when the frame has the accepted length; on
success nothing is written, on failure `STATUS.LENERR` is set, `LENERR(len(F))` is raised and `MEAS` is untouched. The
pipeline performs it on every frame that passed VERIFY; a frame that did not reports `CORRUPT` whatever its length. That
a passed LENCHK run by itself leaves the event `NONE`, and that LENCHK run by itself on a frame that does not verify
does the same as on one that does, are the model's choices (assumption logs 3, 20). -/
def Obligations.LenchkTestsPayloadLength : Prop :=
  (∀ (s : State) (frame : List Byte), frame.length = s.cfg.frameLenDec →
    exec (.lenchk frame) s = .next { s with event := .none }) ∧
  (∀ (s : State) (frame : List Byte), frame.length ≠ s.cfg.frameLenDec →
    exec (.lenchk frame) s = .next { s with lenErr := true, event := .lenErr frame.length }) ∧
  (∀ (c : Config) (frame : List Byte), (payloadOf c frame).length = frame.length - 1 - c.payloadOffset ∧
    ((payloadOf c frame).length = payloadLen ↔ frame.length = c.frameLenDec)) ∧
  (∀ (s : State) (frame : List Byte), frame.length ≠ s.cfg.frameLenDec →
    pipeline frame s = if verify frame then exec (.lenchk frame) s else .next { s with event := .corrupt })

/-- R150: DEC writes the nine values of the record from the frame's payload bytes `F[PAYLOAD_OFFSET + k]`, all together,
sets `MEAS_WRITTEN`, and emits the record; each value is the one its field rule gives (R152 to R159). The pipeline
performs it after VERIFY and LENCHK pass. That DEC run by itself does so on a frame that does not verify is the model's
choice (assumption log 20). -/
def Obligations.DecWritesTheRecord : Prop :=
  (∀ (s : State) (frame : List Byte), frame.length = s.cfg.frameLenDec →
    ∃ r : Meas, exec (.dec frame) s = .next { s with meas := r, measWritten := true, event := .meas r } ∧
      ∀ p : Nat → Nat, (∀ k, p k = (frame.getD (s.cfg.payloadOffset + k) 0).toNat) →
        r.co2.toNat = 256 * p 0 + p 1 ∧ r.voc.toNat = 256 * p 2 + p 3 ∧ r.humX10.toNat = 256 * p 4 + p 5 ∧
        r.tempX10.toInt = 256 * (p 6 : Int) + p 7 - 500 ∧ r.pm25.toNat = 256 * p 8 + p 9 ∧
        r.pm10.toNat = 256 * p 10 + p 11 ∧ (r.pm10Present = true ↔ 256 * p 10 + p 11 ≠ 0) ∧
        r.pm1.toNat = 256 * p 12 + p 13 ∧ (r.pm1Present = true ↔ 256 * p 12 + p 13 ≠ 0)) ∧
  (∀ (s : State) (frame : List Byte), frame.length = s.cfg.frameLenDec → verify frame = true →
    pipeline frame s = exec (.dec frame) s)

/-- R152, R153, R154, R156: the four unscaled field operations write `be16` of their two bytes into their own field. Run
by themselves they leave `MEAS_WRITTEN` alone, which is the model's choice (assumption log 7). That the event is `NONE`
when a field operation is run by itself is the model's choice too (assumption log 3). -/
def Obligations.PlainFieldsAreBigEndian : Prop :=
  ∀ (s : State) (h l : Byte), ∃ v : Half, v.toNat = 256 * h.toNat + l.toNat ∧
    exec (.decCo2 h l) s = .next { s with meas := { s.meas with co2 := v }, event := .none } ∧
    exec (.decVoc h l) s = .next { s with meas := { s.meas with voc := v }, event := .none } ∧
    exec (.decHum h l) s = .next { s with meas := { s.meas with humX10 := v }, event := .none } ∧
    exec (.decPm25 h l) s = .next { s with meas := { s.meas with pm25 := v }, event := .none }

/-- R155, R162: the temperature field is the raw word less 500, without wrap in 17-bit two's complement, in the range
-500 to 65035, and negative exactly when the raw word is below 500. The operation by itself leaves `MEAS_WRITTEN` alone
(assumption log 7). That the event is `NONE` when a field operation is run by itself is the model's choice too
(assumption log 3). -/
def Obligations.TemperatureNeverWraps : Prop :=
  ∀ (s : State) (h l : Byte), ∃ v : Temp,
    exec (.decTemp h l) s = .next { s with meas := { s.meas with tempX10 := v }, event := .none } ∧
    v.toInt = (256 * h.toNat + l.toNat : Nat) - 500 ∧ -500 ≤ v.toInt ∧ v.toInt ≤ 65035 ∧
    (v.toInt < 0 ↔ 256 * h.toNat + l.toNat < 500)

/-- R157, R158, R159: a raw PM10 or PM1 word of exactly 0 is absent and the value port is 0; every other raw word is
present and is the value. The operations by themselves leave `MEAS_WRITTEN` alone (assumption log 7). That the event is
`NONE` when a field operation is run by itself is the model's choice too (assumption log 3). -/
def Obligations.SentinelZeroMeansAbsent : Prop :=
  ∀ (s : State) (h l : Byte), ∃ (v : Half) (p : Bool),
    exec (.decPm10 h l) s = .next { s with meas := { s.meas with pm10 := v, pm10Present := p }, event := .none } ∧
    exec (.decPm1 h l) s = .next { s with meas := { s.meas with pm1 := v, pm1Present := p }, event := .none } ∧
    v.toNat = 256 * h.toNat + l.toNat ∧ (p = false ↔ h = 0 ∧ l = 0) ∧
    (∀ m : Meas, m.pm10 = v → m.pm10Present = p → pm10Value m = if h = 0 ∧ l = 0 then none else some v) ∧
    (∀ m : Meas, m.pm1 = v → m.pm1Present = p → pm1Value m = if h = 0 ∧ l = 0 then none else some v)

/-- R11, R76, R162: `be16` is unsigned, total and 0 only for two zero bytes, and `hi8`, `lo8` take its value apart. -/
def Obligations.BigEndianAssembly : Prop :=
  (∀ h l : Byte, (be16 h l).toNat = 256 * h.toNat + l.toNat) ∧ (∀ h l : Byte, be16 h l = 0 ↔ h = 0 ∧ l = 0) ∧
  (∀ h l : Byte, hi8 (be16 h l).toNat = h ∧ lo8 (be16 h l).toNat = l) ∧
  (∀ v : Nat, (be16 (hi8 v) (lo8 v)).toNat = v % 65536)

/-- R161: the display of a count of tenths is exact: the sign is taken first, the magnitude is ten times the integer part
plus the decimal digit, and -1 is "-0.1"; the humidity and temperature a record denotes are its tenths over 10. -/
def Obligations.TenthsAreExact : Prop :=
  (∀ v : Int, v = (if (displayTenths v).1 then -1 else 1) * (10 * ((displayTenths v).2.1 : Int) + (displayTenths v).2.2) ∧
    (displayTenths v).2.2 < 10 ∧ ((displayTenths v).1 = true ↔ v < 0)) ∧
  displayTenths (-1) = (true, 0, 1) ∧
  (∀ r : Meas, humidity r * 10 = r.humX10.toNat ∧ temperature r * 10 = r.tempX10.toInt)

/-! ### The request encoder (43_encoder.md) -/

/-- R182: `req_kind = 0` selects ENC.START, whatever stands on the other input ports, and its frame is `11 02 01 00 ec`.
The rule gives the frame; that it stands in the field `tx` of the state after the clock period, and that the encoder's ports
may be unused in a period, are the model's choices (assumption logs 4, 5). -/
def Obligations.StartStreamingFrame : Prop :=
  (∀ s : State, exec .encStart s = .next { s with tx := [0x11, 0x02, 0x01, 0x00, 0xec] }) ∧
  (∀ (n : Nat) (e : Bool), requestFrame 0 n e = [0x11, 0x02, 0x01, 0x00, 0xec]) ∧
  (∀ (s : State) (r v : Bool) (b : Byte) (n : Nat) (e : Bool) (more : List Input),
    s.input = ⟨r, v, b, some ⟨0, n, e⟩⟩ :: more →
    step s = andThen (exec .encStart { s with input := more, tx := [] })
      (runReceive (selectRx s.st (lastByte s) ⟨r, v, b, some ⟨0, n, e⟩⟩)))

/-- R183: `req_kind = 1` selects ENC.CAL; its frame carries the operand modulo 65536, high byte first, and the trailer
`(-(0x17 + hh + ll)) mod 256`; every port width `CAL_W` of 16 or more gives the same frame. The rule gives the frame; that it
stands in the field `tx` of the state after the clock period, that the encoder's ports may be unused in a period, and that
a port carries a number modulo `2 ^ CAL_W`, are the model's choices (assumption logs 4, 5, 16). -/
def Obligations.CalibrateFrame : Prop :=
  (∀ (s : State) (n : Nat), ∃ hh ll cc : Byte,
    exec (.encCal n) s = .next { s with tx := [0x11, 0x03, 0x03, hh, ll, cc] } ∧
    hh.toNat = n % 65536 / 256 ∧ ll.toNat = n % 65536 % 256 ∧
    (cc.toNat : Int) = (-(0x17 + hh.toNat + ll.toNat : Int)) % 256) ∧
  (∀ (c : Config) (n : Nat) (e : Bool), 16 ≤ c.calW → encoderOut c (some ⟨1, n, e⟩) = txFrame (bodyCal n)) ∧
  (∀ (s : State) (r v : Bool) (b : Byte) (n : Nat) (e : Bool) (more : List Input),
    s.input = ⟨r, v, b, some ⟨1, n, e⟩⟩ :: more →
    step s = andThen (exec (.encCal (portOperand s.cfg n)) { s with input := more, tx := [] })
      (runReceive (selectRx s.st (lastByte s) ⟨r, v, b, some ⟨1, n, e⟩⟩)))

/-- R184: `req_kind = 2` selects ENC.DUST by `req_enable`; the frames are `11 03 0c 02 1e c0` for true and
`11 03 0c 01 1e c1` for false. The rule gives the frames; that they stand in the field `tx` of the state after the clock
period, and that the encoder's ports may be unused in a period, are the model's choices (assumption logs 4, 5). -/
def Obligations.DustFrames : Prop :=
  (∀ s : State, exec .encDustOn s = .next { s with tx := [0x11, 0x03, 0x0c, 0x02, 0x1e, 0xc0] }) ∧
  (∀ s : State, exec .encDustOff s = .next { s with tx := [0x11, 0x03, 0x0c, 0x01, 0x1e, 0xc1] }) ∧
  (∀ (n : Nat) (e : Bool), requestFrame 2 n e =
    if e then [0x11, 0x03, 0x0c, 0x02, 0x1e, 0xc0] else [0x11, 0x03, 0x0c, 0x01, 0x1e, 0xc1]) ∧
  (∀ (s : State) (r v : Bool) (b : Byte) (n : Nat) (e : Bool) (more : List Input),
    s.input = ⟨r, v, b, some ⟨2, n, e⟩⟩ :: more →
    step s = andThen (exec (if e then .encDustOn else .encDustOff) { s with input := more, tx := [] })
      (runReceive (selectRx s.st (lastByte s) ⟨r, v, b, some ⟨2, n, e⟩⟩)))

/-- R185: `req_kind = 3` selects no request: the encoder gives no frame for it (`tx_len = 0`), and the model refuses the
input by name, whatever else stands on the ports. R185 refuses the request; that the refusal ends the whole clock
period, a byte or RESET in it included, is the model's choice (assumption logs 5, 14). -/
def Obligations.ReservedSelectorIsRefused : Prop :=
  (∀ (n : Nat) (e : Bool), requestFrame 3 n e = []) ∧
  (∀ s : State, exec .encReserved s = .refused .reservedSelector) ∧
  (∀ (s : State) (r v : Bool) (b : Byte) (n : Nat) (e : Bool) (more : List Input),
    s.input = ⟨r, v, b, some ⟨3, n, e⟩⟩ :: more → step s = .refused .reservedSelector)

/-- R137, R181, R186: every encoded frame verifies, starts with `0x11`, carries its length less 3, has 5 bytes for
`startStreaming` and 6 for the others, and one of the three wire opcodes. -/
def Obligations.EncodedFramesVerify : Prop :=
  ∀ (kind : BitVec 2) (n : Nat) (e : Bool), kind ≠ 3 →
    ∃ len op : Byte, ∃ tail : List Byte, requestFrame kind n e = 0x11 :: len :: op :: tail ∧
      verify (requestFrame kind n e) = true ∧ (requestFrame kind n e).length = len.toNat + 3 ∧
      (requestFrame kind n e).length = (if kind = 0 then 5 else 6) ∧
      op = (if kind = 0 then 0x01 else if kind = 1 then 0x03 else 0x0c)

/-- R186: distinct requests have distinct frames: the selector, the calibration operand modulo 65536 and the enable flag
can be read back. -/
def Obligations.EncoderIsInjective : Prop :=
  ∀ (k₁ k₂ : BitVec 2) (n₁ n₂ : Nat) (e₁ e₂ : Bool), requestFrame k₁ n₁ e₁ = requestFrame k₂ n₂ e₂ →
    k₁ = k₂ ∧ (k₁ = 1 → n₁ % 65536 = n₂ % 65536) ∧ (k₁ = 2 → e₁ = e₂)

/-- R8, R180, R187, R235: in every clock period, whatever the receive side does in it, RESET included, the encoder's output
is the frame of what stands on its ports, and the receive side does what it does without the encoder: a clock period with a
request leaves the state that the same period without it leaves, but for the encoder's output; a received byte leaves the
encoder's output alone. That the output stands in the field `tx` and is empty where the host does not use the encoder is the
model's choice (assumption logs 4, 5). -/
def Obligations.EncoderAndReceiverAreIndependent : Prop :=
  (∀ (s : State) (p : Input) (more : List Input), s.input = p :: more → validRequest p.req = true →
    step s = runReceive (selectRx s.st (lastByte s) p) { s with input := more, tx := encoderOut s.cfg p.req }) ∧
  (∀ (s u : State) (p : Input) (more : List Input), s.input = p :: more → validRequest p.req = true →
    step { s with input := { p with req := none } :: more } = .next u →
    step s = .next { u with tx := encoderOut s.cfg p.req }) ∧
  (∀ (s t : State) (b : Byte), rxStep s b = .next t → t.tx = s.tx)

/-! ### Reset, idleness and the step (44_pipeline.md, 70_reset_and_hazards.md) -/

/-- R250, R251: `rst = 1` selects RESET, with priority over any byte presented with it, which is lost; RESET returns
every register to its reset value, reports `NONE`, discards the partial frame, makes `MEAS` never written, and touches
neither the configuration nor the encoder. The fields of `MEAS` are unspecified afterwards: nothing is said of them. -/
def Obligations.ResetClearsEveryRegister : Prop :=
  (∀ s : State, ∃ (m : Meas) (k : Nat), exec .reset s = .next
    { s with
      st := .hunt, cnt := 0, tot := 0, sum := 0, buf := [], lenErr := false, measWritten := false, event := .none
      meas := m, freeCtr := k }) ∧
  (∀ (st : FramerState) (last v : Bool) (b : Byte) (q : Option Request),
    selectRx st last ⟨true, v, b, q⟩ = some .reset) ∧
  (∀ (s : State) (v : Bool) (b : Byte) (q : Option Request) (more : List Input), validRequest q = true →
    s.input = ⟨true, v, b, q⟩ :: more →
    ∃ t, step s = .next t ∧ t.st = .hunt ∧ t.cnt = 0 ∧ t.tot = 0 ∧ t.sum = 0 ∧ t.buf = [] ∧ t.lenErr = false ∧
      t.measWritten = false ∧ t.event = .none ∧ t.cfg = s.cfg ∧ t.input = more)

/-- R34: the machine after reset, with every strobe 0 and no measurement to read. -/
def Obligations.ResetStateValues : Prop :=
  State.reset.st = .hunt ∧ State.reset.cnt = 0 ∧ State.reset.tot = 0 ∧ State.reset.sum = 0 ∧
  State.reset.measWritten = false ∧ State.reset.lenErr = false ∧ State.reset.event = .none ∧
  measValid State.reset = false ∧ frameDrop State.reset = false ∧ lenErrStrobe State.reset = false ∧
  measurement State.reset = none

/-- R203, R243: a clock period with `rst = 0` and `rx_valid = 0` changes no state and leaves all strobes 0, and so does
one in which nothing is presented; the encoder's output is that of its ports in the period (assumption logs 2, 4). That
the encoder's ports may be unused in a clock period is the model's choice (assumption log 5). -/
def Obligations.IdlePeriodChangesNothing : Prop :=
  (∀ (s : State) (b : Byte) (q : Option Request) (more : List Input), validRequest q = true →
    s.input = ⟨false, false, b, q⟩ :: more →
    step s = .next { s with input := more, event := .none, tx := encoderOut s.cfg q }) ∧
  (∀ s : State, s.input = [] → step s = .next { s with event := .none, tx := [] })

/-- R109, R243: there is no time-out: after any number of clock periods without a byte every register and the partial
frame are as they were, whatever the encoder is used for meanwhile. That an exhausted input is idle is the model's
choice (assumption log 2). That the encoder's ports may be unused in a clock period is the model's choice (assumption
log 5). -/
def Obligations.NoTimeout : Prop :=
  ∀ (k : Nat) (s : State), (∀ p ∈ s.input, p.rst = false ∧ p.rxValid = false ∧ validRequest p.req = true) →
    ∃ frame, Host.Core.run core (k + 1) s =
      .next { s with input := s.input.drop (k + 1), event := .none, tx := frame }

/-- R203, R225: exactly one of the three strobes, or none with the event `NONE`, is 1: the strobe of the step's event.
For a length of 512 or more, which needs `OVERHEAD` above 256 and of which R203 says nothing, that `len_err_n` is the
length modulo 512 is the model's choice (assumption log 11). -/
def Obligations.OneStrobePerStep : Prop :=
  ∀ s : State,
    (measValid s = true ↔ ∃ r, s.event = .meas r) ∧ (frameDrop s = true ↔ s.event = .corrupt) ∧
    (lenErrStrobe s = true ↔ ∃ n, s.event = .lenErr n) ∧
    (∀ n, s.event = .lenErr n → lenErrN s = some (BitVec.ofNat 9 n))

/-- R80, R81, R202: the step runs the operations the selection maps give, the encoder's and the receive side's, on the
state with the clock period consumed and no frame on the encoder's output; for a received byte the receive side's
operation is the one the decoder reads from the byte in the framer's state. That the ports' values wait in `input` and
the output stands in `tx` is the model's choice (assumption logs 2, 4). That the encoder's operation is run first and
the receive side's second, and that the encoder's ports may be unused in a clock period, are the model's choices too
(assumption log 5). -/
def Obligations.StepRunsTheSelectedOperation : Prop :=
  (∀ (s : State) (p : Input) (more : List Input), s.input = p :: more →
    step s = andThen (runEncoder (selectEnc s.cfg p) { s with input := more, tx := [] })
      (runReceive (selectRx s.st (lastByte s) p))) ∧
  (∀ (s : State) (b : Byte) (q : Option Request) (more : List Input) (op : Instr), validRequest q = true →
    s.input = ⟨false, true, b, q⟩ :: more → decode s.cfg (.rx s.st (lastByte s)) [b] = .ok op →
    op.wf s.cfg = true ∧ step s = exec op { s with input := more, tx := encoderOut s.cfg q }) ∧
  (∀ (s : State) (b : Byte) (q : Option Request) (more : List Input), validRequest q = true →
    s.input = ⟨false, true, b, q⟩ :: more →
    step s = rxStep { s with input := more, tx := encoderOut s.cfg q } b)

/-- R202, R224: from every state that meets the invariant a step answers a next state, unless the reserved selector is
presented: the block never stops. That the reserved selector ends the whole clock period is the model's choice
(assumption logs 5, 14). -/
def Obligations.StepIsTotal : Prop :=
  ∀ s : State, s.inv = true → (∀ p, s.input.head? = some p → validRequest p.req = true) → ∃ t, step s = .next t

/-- R27: the state invariant is preserved by every step, whatever is presented, and RESET establishes it from any state
with a well-formed configuration. -/
def Obligations.StepKeepsTheStateInvariant : Prop :=
  (∀ s t : State, s.inv = true → step s = .next t → t.inv = true) ∧
  (∀ s t : State, s.cfg.wf = true → exec .reset s = .next t → t.inv = true)

/-- R27, R34: the state after reset meets the state invariant, with the decided profile and with the alternative. -/
def Obligations.ResetMeetsTheStateInvariant : Prop :=
  State.reset.inv = true ∧ ({ State.reset with cfg := Config.alternative } : State).inv = true

/-- R24, R50: every step keeps the canonical form of the memory, from every state, reachable or not. -/
def Obligations.StepKeepsMemoryCanonical : Prop :=
  ∀ s t : State, s.buf.wf = true → step s = .next t → t.buf.wf = true

/-- R22, R23, R24, R111: under the invariant every frame byte is stored inside `BUF`, `CNT` and `TOT` never exceed
`MAXFRAME`, and for `OVERHEAD <= 256` nine bits hold both. -/
def Obligations.CountersFitNineBits : Prop :=
  ∀ s : State, s.inv = true →
    (s.st ≠ .hunt → s.cnt < s.cfg.maxFrame) ∧ s.cnt ≤ s.cfg.maxFrame ∧ s.tot ≤ s.cfg.maxFrame ∧
    (s.cfg.overhead ≤ 256 → (cntReg s).toNat = s.cnt ∧ (totReg s).toNat = s.tot)

/-! ### Whole-machine rules -/

/-- R63, R251: no operation changes the configuration, and none touches what waits on the input ports. -/
def Obligations.ConfigurationIsStatic : Prop :=
  ∀ (i : Instr) (s t : State), exec i s = .next t → t.cfg = s.cfg ∧ t.input = s.input

/-- R206(5): no operation but RESET takes `STATUS.LENERR` or `MEAS_WRITTEN` from 1 to 0. -/
def Obligations.StatusBitsAreMonotonic : Prop :=
  ∀ (i : Instr) (s t : State), i ≠ .reset → exec i s = .next t →
    (s.lenErr = true → t.lenErr = true) ∧ (s.measWritten = true → t.measWritten = true)

/-- R30, R200: a step that is not a RESET changes `MEAS` or `MEAS_WRITTEN` only when its event is `MEAS(r)`, and then
`MEAS` holds `r` and `MEAS_WRITTEN` is 1. -/
def Obligations.MeasChangesOnlyWithMeasEvent : Prop :=
  ∀ s t : State, (∀ p, s.input.head? = some p → p.rst = false) → step s = .next t →
    ((∀ r, t.event ≠ .meas r) → t.meas = s.meas ∧ t.measWritten = s.measWritten) ∧
    (∀ r, t.event = .meas r → t.meas = r ∧ measurement t = some r)

/-- R222, R29: a step that is not a RESET changes `STATUS.LENERR` only when its event is `LENERR(n)`, and then the bit is
1 and `n` is not the accepted length. -/
def Obligations.LenErrChangesOnlyWithLenErrEvent : Prop :=
  ∀ s t : State, (∀ p, s.input.head? = some p → p.rst = false) → step s = .next t →
    ((∀ n, t.event ≠ .lenErr n) → t.lenErr = s.lenErr) ∧
    (∀ n, t.event = .lenErr n → t.lenErr = true ∧ n ≠ s.cfg.frameLenDec)

/-- R206(4), R226: after every clock period whose event is not `NONE` the framer registers equal their reset values and
nothing is buffered, from every state; the encoder's output is that of its ports (assumption log 4). That the encoder's
ports may be unused in a clock period is the model's choice (assumption log 5). -/
def Obligations.FramerIsIdleAfterEveryEvent : Prop :=
  ∀ s t : State, step s = .next t → t.event ≠ .none →
    idle t = true ∧ t.freeCtr = s.freeCtr ∧ ∃ p more, s.input = p :: more ∧ t.tx = encoderOut s.cfg p.req

/-- R84, R185, R224: the one operation the model refuses is the reserved selector's, and it is refused in every state.
That an operation run where nothing selects it is not refused is the model's choice (assumption logs 7, 20). -/
def Obligations.OnlyTheReservedSelectorIsRefused : Prop :=
  ∀ (i : Instr) (s : State), (∃ r, exec i s = .refused r) ↔ i = .encReserved

/-! ### Encodings -/

/-- R70 to R75, R80, R81: decoding the bytes of a well-formed operation at its port gives it back, with every operand; of
ENC.CAL's operand the wire carries the value modulo 65536. The decoder of outbound frames is the model's own
(assumption log 13). -/
def Obligations.DecodeEncodeRoundTrip : Prop :=
  ∀ (c : Config) (i : Instr), i.wf c = true → decode c (encode i).1 (encode i).2 = .ok i.onWire

/-- R84: the decoder of outbound frames, the model's own (assumption log 13), accepts only frames the encoder produces: the
bytes of what it reads are the bytes it read. -/
def Obligations.AcceptedOutboundFramesAreEncoded : Prop :=
  ∀ (c : Config) (bytes : List Byte) (i : Instr), decode c .tx bytes = .ok i → encode i = (.tx, bytes)

/-- R73 to R75, R80: some words of the spec decode to the operations they stand for. The rules give the words; the decoder of
outbound frames is the model's own (assumption log 13), and so is how `decodeTableWord` numbers a word's bits, first byte in
bits 7..0, and that it reads one byte with the framer hunting (assumption log 15). -/
def Obligations.SpecWordsDecode : Prop :=
  decode Config.decided (.rx .hunt false) [0x16] = .ok .sof ∧
  decode Config.decided (.rx .hunt false) [0x11] = .ok (.skip 0x11) ∧
  decode Config.decided .tx [0x11, 0x02, 0x01, 0x00, 0xec] = .ok .encStart ∧
  decode Config.decided .tx [0x11, 0x03, 0x03, 0x11, 0x70, 0x68] = .ok (.encCal 4464) ∧
  decode Config.decided .tx [0x11, 0x03, 0x0c, 0x02, 0x1e, 0xc0] = .ok .encDustOn ∧
  decode Config.decided .tx [0x11, 0x03, 0x0c, 0x01, 0x1e, 0xc1] = .ok .encDustOff ∧
  decodeTableWord 8 0x16 = some .sof ∧ decodeTableWord 40 0xec00010211 = some .encStart

/-! ### Runs (44_pipeline.md R205, R206; 40_framer.md R112) -/

/-- R205, R55: a run of two byte lists one after the other is the run of the first and then of the second from the state
it left, the events joined: chunk boundaries carry no meaning. -/
def Obligations.ChunkBoundariesMeanNothing : Prop :=
  ∀ (s t u : State) (as bs : List Byte) (es fs : List Event), run s as = .next (t, es) → run t bs = .next (u, fs) →
    run s (as ++ bs) = .next (u, es ++ fs)

/-- R202, R204, R205: from every state that meets the invariant the block consumes every byte of every list, reports one
event for each, and meets the invariant again. -/
def Obligations.RunConsumesEveryByte : Prop :=
  ∀ (s : State) (bytes : List Byte), s.inv = true →
    ∃ t events, run s bytes = .next (t, events) ∧ events.length = bytes.length ∧ t.inv = true

/-- R206(1), R228: a good frame fed to a hunting block gives `len(F) - 1` events `NONE` and then `MEAS(DEC(F))`, ends idle, and
leaves `STATUS.LENERR` as it was, 1 or 0 (R228). -/
def Obligations.GoodFrameIsAccepted : Prop :=
  ∀ (s : State) (frame : List Byte), s.inv = true → s.st = .hunt → frame.head? = some 0x16 →
    frame[1]? = some (BitVec.ofNat 8 (s.cfg.frameLenDec - s.cfg.overhead)) → frame.length = s.cfg.frameLenDec →
    total frame % 256 = 0 →
    ∃ t r, decodePayload (payloadOf s.cfg frame) = some r ∧
      run s frame = .next (t, List.replicate (frame.length - 1) Event.none ++ [Event.meas r]) ∧ idle t = true ∧
      measurement t = some r ∧ t.lenErr = s.lenErr

/-- R164: for every well-formed profile, any seven field values and any uninterpreted bytes, the frame built from them
and fed to a freshly reset block gives exactly one event that is not `NONE`, `MEAS` with the seven values. -/
def Obligations.MeasurementRoundTrip : Prop :=
  ∀ (cfg : Config) (c v h x a b d : Half) (between : List Byte), cfg.wf = true →
    between.length = cfg.payloadOffset - 2 →
    ∀ pre frame : List Byte,
      pre = [0x16, BitVec.ofNat 8 (cfg.frameLenDec - cfg.overhead)] ++ between ++
        [hi8 c.toNat, lo8 c.toNat, hi8 v.toNat, lo8 v.toNat, hi8 h.toNat, lo8 h.toNat, hi8 x.toNat, lo8 x.toNat,
          hi8 a.toNat, lo8 a.toNat, hi8 b.toNat, lo8 b.toNat, hi8 d.toNat, lo8 d.toNat] →
      frame = pre ++ [compute pre] →
      ∃ t events r, run { State.reset with cfg := cfg } frame = .next (t, events) ∧
        completed events = [Event.meas r] ∧
        r.co2 = c ∧ r.voc = v ∧ r.humX10 = h ∧ r.tempX10.toInt = (x.toNat : Int) - 500 ∧ r.pm25 = a ∧
        r.pm10 = b ∧ (r.pm10Present = true ↔ b ≠ 0) ∧ r.pm1 = d ∧ (r.pm1Present = true ↔ d ≠ 0)

/-- R112: the defining equations of `split` and `rest` on byte lists. -/
def Obligations.SplitterEquations : Prop :=
  ∀ c : Config, c.wf = true →
    (split c [] = [] ∧ leftOver c [] = []) ∧
    (∀ (b : Byte) (bs : List Byte), b ≠ 0x16 →
      split c (b :: bs) = split c bs ∧ leftOver c (b :: bs) = leftOver c bs) ∧
    (split c [0x16] = [] ∧ leftOver c [0x16] = [0x16]) ∧
    (∀ (l : Byte) (bs : List Byte) (n : Nat), n = l.toNat + c.overhead → n ≤ (0x16 :: l :: bs).length →
      split c (0x16 :: l :: bs) = (0x16 :: l :: bs).take n :: split c ((0x16 :: l :: bs).drop n) ∧
      leftOver c (0x16 :: l :: bs) = leftOver c ((0x16 :: l :: bs).drop n)) ∧
    (∀ (l : Byte) (bs : List Byte), (0x16 :: l :: bs).length < l.toNat + c.overhead →
      split c (0x16 :: l :: bs) = [] ∧ leftOver c (0x16 :: l :: bs) = 0x16 :: l :: bs)

/-- R112, R206(2), R206(3): the register machine refines the splitter: the events of a run that are not `NONE` are, in
order, those of the frames `split` gives, and the buffered partial frame is `rest`. -/
def Obligations.MachineRefinesTheSplitter : Prop :=
  ∀ (s t : State) (bytes : List Byte) (events : List Event), s.inv = true → s.st = .hunt →
    run s bytes = .next (t, events) →
    completed events = (split s.cfg bytes).map (frameEvent s.cfg) ∧
    bufBytes t = leftOver s.cfg bytes

/-- R206(2), R206(3): a run of a hunting block reports `MEAS(r)` only for a good frame that stands in the stream where the
block was hunting, one that `split` cuts, and of which `r` is the record; and it reports as many events other than `NONE` as
`split` cuts frames. -/
def Obligations.MeasOnlyForGoodFrames : Prop :=
  ∀ (s t : State) (bytes : List Byte) (events : List Event), s.inv = true → s.st = .hunt →
    run s bytes = .next (t, events) →
    (∀ r, Event.meas r ∈ events → ∃ frame ∈ split s.cfg bytes, frame <:+: bytes ∧ goodFrame s.cfg frame = true ∧
      decodePayload (payloadOf s.cfg frame) = some r) ∧
    (completed events).length = (split s.cfg bytes).length

/-- R106, R60: every frame the splitter emits starts with `0x16` and has `F[1] + OVERHEAD` bytes, its bytes are
consecutive in the stream, and the frames and the rest stand in the stream in order, no byte in two of them. -/
def Obligations.FramesAreDisjointSegments : Prop :=
  ∀ (c : Config) (bytes : List Byte), c.wf = true →
    (∀ frame ∈ split c bytes, candidate c frame = true ∧ frame <:+: bytes) ∧
    List.Sublist ((split c bytes).flatten ++ leftOver c bytes) bytes

/-- R112: splitting a list and then a second one is splitting the first and then its rest followed by the second. -/
def Obligations.SplitContinuesFromTheRest : Prop :=
  ∀ (c : Config) (as bs : List Byte), c.wf = true →
    split c (as ++ bs) = split c as ++ split c (leftOver c as ++ bs) ∧
    leftOver c (as ++ bs) = leftOver c (leftOver c as ++ bs)

/-- R83, R101: bytes without a `0x16`, the encoder's own frames of `startStreaming` and `manageDustMeasurement` among
them, are skipped by a hunting block: one event `NONE` each and no register changed. -/
def Obligations.BytesWithoutDelimiterAreSkipped : Prop :=
  (∀ (s : State) (bytes : List Byte), s.st = .hunt → (∀ b ∈ bytes, b ≠ 0x16) →
    run s bytes = .next ({ s with event := if bytes = [] then s.event else .none },
      List.replicate bytes.length Event.none)) ∧
  (∀ e : Bool, ∀ b ∈ txFrame bodyStart ++ txFrame (bodyDust e), b ≠ 0x16)
end

