-- ==== Sys2Proof/Laws/Checksum.lean ====
section
/-! SUPPORT. The small lemmas of the checksum and of the byte helpers. -/

namespace Sys2Proof.Machine

@[simp] theorem total_nil : total [] = 0 := rfl

@[simp] theorem total_cons (b : Byte) (bs : List Byte) : total (b :: bs) = b.toNat + total bs := rfl

@[simp] theorem total_append (as bs : List Byte) : total (as ++ bs) = total as + total bs := by
  induction as with
  | nil => simp
  | cons a as ih => simp [ih, Nat.add_assoc]

/-- COMPUTE as a number (41_checksum.md R130, the pseudocode's second form). -/
theorem compute_toNat (bs : List Byte) : (compute bs).toNat = (256 - total bs % 256) % 256 := by
  have h : ~~~(total bs : Int) + 1 = -(total bs : Int) := by
    have : ~~~(total bs : Int) = -(total bs : Int) - 1 := by
      show Int.not _ = _
      cases total bs <;> simp [Int.not]
      omega
    omega
  rw [compute, h, BitVec.toNat_ofInt]
  omega

/-- VERIFY of a sequence with a last byte is the zero-sum test. -/
theorem verify_snoc (bs : List Byte) (c : Byte) : verify (bs ++ [c]) = (total (bs ++ [c]) % 256 == 0) := by
  simp [verify]

/-- A frame that verifies is not empty and sums to 0 modulo 256. -/
theorem verify_iff (bs : List Byte) : verify bs = true ↔ bs ≠ [] ∧ total bs % 256 = 0 := by
  simp [verify]

@[simp] theorem be16_toNat (h l : Byte) : (be16 h l).toNat = 256 * h.toNat + l.toNat := by
  simp only [be16, BitVec.toNat_ofNat]
  omega

@[simp] theorem hi8_toNat (v : Nat) : (hi8 v).toNat = v % 65536 / 256 := by
  simp only [hi8, BitVec.toNat_ofNat]
  omega

@[simp] theorem lo8_toNat (v : Nat) : (lo8 v).toNat = v % 256 := by
  simp [lo8]

/-- An outbound frame has three bytes more than its body (43_encoder.md R181). -/
@[simp] theorem txFrame_length (body : List Byte) : (txFrame body).length = body.length + txOverhead := by
  simp [txFrame, txOverhead]

/-- The payload of a frame of the accepted length has 14 bytes (42_decoder.md R151). -/
theorem payloadOf_length (c : Config) (frame : List Byte) :
    (payloadOf c frame).length = frame.length - 1 - c.payloadOffset := by
  simp [payloadOf]

/-- A payload of 14 bytes has a record. -/
theorem decodePayload_isSome {p : List Byte} (h : p.length = payloadLen) : ∃ r, decodePayload p = some r := by
  match p, h with
  | [_, _, _, _, _, _, _, _, _, _, _, _, _, _], _ => exact ⟨_, rfl⟩

/-- A frame of the accepted length has a record. -/
theorem decode_of_lengthOk {c : Config} {frame : List Byte} (h : lengthOk c frame = true) :
    ∃ r, decodePayload (payloadOf c frame) = some r := by
  apply decodePayload_isSome
  rw [payloadOf_length]
  simp only [lengthOk, beq_iff_eq, Config.frameLenDec] at h
  omega

end Sys2Proof.Machine
end

