-- ==== Sys2Proof/Laws/State.lean ====
section
/-! SUPPORT. What each named update leaves in each field of the state, one lemma per field per update. -/

namespace Sys2Proof.Machine

variable (s : State)

/-! ### setFramer -/

@[simp] theorem setFramer_cfg (f : FramerState) (c n : Nat) (b : Byte) : (setFramer f c n b s).cfg = s.cfg := rfl
@[simp] theorem setFramer_st (f : FramerState) (c n : Nat) (b : Byte) : (setFramer f c n b s).st = f := rfl
@[simp] theorem setFramer_cnt (f : FramerState) (c n : Nat) (b : Byte) : (setFramer f c n b s).cnt = c := rfl
@[simp] theorem setFramer_tot (f : FramerState) (c n : Nat) (b : Byte) : (setFramer f c n b s).tot = n := rfl
@[simp] theorem setFramer_sum (f : FramerState) (c n : Nat) (b : Byte) : (setFramer f c n b s).sum = b := rfl
@[simp] theorem setFramer_buf (f : FramerState) (c n : Nat) (b : Byte) : (setFramer f c n b s).buf = s.buf := rfl
@[simp] theorem setFramer_meas (f : FramerState) (c n : Nat) (b : Byte) : (setFramer f c n b s).meas = s.meas := rfl
@[simp] theorem setFramer_measWritten (f : FramerState) (c n : Nat) (b : Byte) : (setFramer f c n b s).measWritten = s.measWritten := rfl
@[simp] theorem setFramer_lenErr (f : FramerState) (c n : Nat) (b : Byte) : (setFramer f c n b s).lenErr = s.lenErr := rfl
@[simp] theorem setFramer_input (f : FramerState) (c n : Nat) (b : Byte) : (setFramer f c n b s).input = s.input := rfl
@[simp] theorem setFramer_event (f : FramerState) (c n : Nat) (b : Byte) : (setFramer f c n b s).event = s.event := rfl
@[simp] theorem setFramer_tx (f : FramerState) (c n : Nat) (b : Byte) : (setFramer f c n b s).tx = s.tx := rfl
@[simp] theorem setFramer_unitOut (f : FramerState) (c n : Nat) (b : Byte) : (setFramer f c n b s).unitOut = s.unitOut := rfl
@[simp] theorem setFramer_freeCtr (f : FramerState) (c n : Nat) (b : Byte) : (setFramer f c n b s).freeCtr = s.freeCtr := rfl

/-! ### setBuf -/

@[simp] theorem setBuf_cfg (m : Memory) : (setBuf m s).cfg = s.cfg := rfl
@[simp] theorem setBuf_st (m : Memory) : (setBuf m s).st = s.st := rfl
@[simp] theorem setBuf_cnt (m : Memory) : (setBuf m s).cnt = s.cnt := rfl
@[simp] theorem setBuf_tot (m : Memory) : (setBuf m s).tot = s.tot := rfl
@[simp] theorem setBuf_sum (m : Memory) : (setBuf m s).sum = s.sum := rfl
@[simp] theorem setBuf_buf (m : Memory) : (setBuf m s).buf = m := rfl
@[simp] theorem setBuf_meas (m : Memory) : (setBuf m s).meas = s.meas := rfl
@[simp] theorem setBuf_measWritten (m : Memory) : (setBuf m s).measWritten = s.measWritten := rfl
@[simp] theorem setBuf_lenErr (m : Memory) : (setBuf m s).lenErr = s.lenErr := rfl
@[simp] theorem setBuf_input (m : Memory) : (setBuf m s).input = s.input := rfl
@[simp] theorem setBuf_event (m : Memory) : (setBuf m s).event = s.event := rfl
@[simp] theorem setBuf_tx (m : Memory) : (setBuf m s).tx = s.tx := rfl
@[simp] theorem setBuf_unitOut (m : Memory) : (setBuf m s).unitOut = s.unitOut := rfl
@[simp] theorem setBuf_freeCtr (m : Memory) : (setBuf m s).freeCtr = s.freeCtr := rfl

/-! ### setMeas -/

@[simp] theorem setMeas_cfg (r : Meas) : (setMeas r s).cfg = s.cfg := rfl
@[simp] theorem setMeas_st (r : Meas) : (setMeas r s).st = s.st := rfl
@[simp] theorem setMeas_cnt (r : Meas) : (setMeas r s).cnt = s.cnt := rfl
@[simp] theorem setMeas_tot (r : Meas) : (setMeas r s).tot = s.tot := rfl
@[simp] theorem setMeas_sum (r : Meas) : (setMeas r s).sum = s.sum := rfl
@[simp] theorem setMeas_buf (r : Meas) : (setMeas r s).buf = s.buf := rfl
@[simp] theorem setMeas_meas (r : Meas) : (setMeas r s).meas = r := rfl
@[simp] theorem setMeas_measWritten (r : Meas) : (setMeas r s).measWritten = s.measWritten := rfl
@[simp] theorem setMeas_lenErr (r : Meas) : (setMeas r s).lenErr = s.lenErr := rfl
@[simp] theorem setMeas_input (r : Meas) : (setMeas r s).input = s.input := rfl
@[simp] theorem setMeas_event (r : Meas) : (setMeas r s).event = s.event := rfl
@[simp] theorem setMeas_tx (r : Meas) : (setMeas r s).tx = s.tx := rfl
@[simp] theorem setMeas_unitOut (r : Meas) : (setMeas r s).unitOut = s.unitOut := rfl
@[simp] theorem setMeas_freeCtr (r : Meas) : (setMeas r s).freeCtr = s.freeCtr := rfl

/-! ### setWritten -/

@[simp] theorem setWritten_cfg (v : Bool) : (setWritten v s).cfg = s.cfg := rfl
@[simp] theorem setWritten_st (v : Bool) : (setWritten v s).st = s.st := rfl
@[simp] theorem setWritten_cnt (v : Bool) : (setWritten v s).cnt = s.cnt := rfl
@[simp] theorem setWritten_tot (v : Bool) : (setWritten v s).tot = s.tot := rfl
@[simp] theorem setWritten_sum (v : Bool) : (setWritten v s).sum = s.sum := rfl
@[simp] theorem setWritten_buf (v : Bool) : (setWritten v s).buf = s.buf := rfl
@[simp] theorem setWritten_meas (v : Bool) : (setWritten v s).meas = s.meas := rfl
@[simp] theorem setWritten_measWritten (v : Bool) : (setWritten v s).measWritten = v := rfl
@[simp] theorem setWritten_lenErr (v : Bool) : (setWritten v s).lenErr = s.lenErr := rfl
@[simp] theorem setWritten_input (v : Bool) : (setWritten v s).input = s.input := rfl
@[simp] theorem setWritten_event (v : Bool) : (setWritten v s).event = s.event := rfl
@[simp] theorem setWritten_tx (v : Bool) : (setWritten v s).tx = s.tx := rfl
@[simp] theorem setWritten_unitOut (v : Bool) : (setWritten v s).unitOut = s.unitOut := rfl
@[simp] theorem setWritten_freeCtr (v : Bool) : (setWritten v s).freeCtr = s.freeCtr := rfl

/-! ### setLenErr -/

@[simp] theorem setLenErr_cfg (v : Bool) : (setLenErr v s).cfg = s.cfg := rfl
@[simp] theorem setLenErr_st (v : Bool) : (setLenErr v s).st = s.st := rfl
@[simp] theorem setLenErr_cnt (v : Bool) : (setLenErr v s).cnt = s.cnt := rfl
@[simp] theorem setLenErr_tot (v : Bool) : (setLenErr v s).tot = s.tot := rfl
@[simp] theorem setLenErr_sum (v : Bool) : (setLenErr v s).sum = s.sum := rfl
@[simp] theorem setLenErr_buf (v : Bool) : (setLenErr v s).buf = s.buf := rfl
@[simp] theorem setLenErr_meas (v : Bool) : (setLenErr v s).meas = s.meas := rfl
@[simp] theorem setLenErr_measWritten (v : Bool) : (setLenErr v s).measWritten = s.measWritten := rfl
@[simp] theorem setLenErr_lenErr (v : Bool) : (setLenErr v s).lenErr = v := rfl
@[simp] theorem setLenErr_input (v : Bool) : (setLenErr v s).input = s.input := rfl
@[simp] theorem setLenErr_event (v : Bool) : (setLenErr v s).event = s.event := rfl
@[simp] theorem setLenErr_tx (v : Bool) : (setLenErr v s).tx = s.tx := rfl
@[simp] theorem setLenErr_unitOut (v : Bool) : (setLenErr v s).unitOut = s.unitOut := rfl
@[simp] theorem setLenErr_freeCtr (v : Bool) : (setLenErr v s).freeCtr = s.freeCtr := rfl

/-! ### setEvent -/

@[simp] theorem setEvent_cfg (e : Event) : (setEvent e s).cfg = s.cfg := rfl
@[simp] theorem setEvent_st (e : Event) : (setEvent e s).st = s.st := rfl
@[simp] theorem setEvent_cnt (e : Event) : (setEvent e s).cnt = s.cnt := rfl
@[simp] theorem setEvent_tot (e : Event) : (setEvent e s).tot = s.tot := rfl
@[simp] theorem setEvent_sum (e : Event) : (setEvent e s).sum = s.sum := rfl
@[simp] theorem setEvent_buf (e : Event) : (setEvent e s).buf = s.buf := rfl
@[simp] theorem setEvent_meas (e : Event) : (setEvent e s).meas = s.meas := rfl
@[simp] theorem setEvent_measWritten (e : Event) : (setEvent e s).measWritten = s.measWritten := rfl
@[simp] theorem setEvent_lenErr (e : Event) : (setEvent e s).lenErr = s.lenErr := rfl
@[simp] theorem setEvent_input (e : Event) : (setEvent e s).input = s.input := rfl
@[simp] theorem setEvent_event (e : Event) : (setEvent e s).event = e := rfl
@[simp] theorem setEvent_tx (e : Event) : (setEvent e s).tx = s.tx := rfl
@[simp] theorem setEvent_unitOut (e : Event) : (setEvent e s).unitOut = s.unitOut := rfl
@[simp] theorem setEvent_freeCtr (e : Event) : (setEvent e s).freeCtr = s.freeCtr := rfl

/-! ### setTx -/

@[simp] theorem setTx_cfg (t : List Byte) : (setTx t s).cfg = s.cfg := rfl
@[simp] theorem setTx_st (t : List Byte) : (setTx t s).st = s.st := rfl
@[simp] theorem setTx_cnt (t : List Byte) : (setTx t s).cnt = s.cnt := rfl
@[simp] theorem setTx_tot (t : List Byte) : (setTx t s).tot = s.tot := rfl
@[simp] theorem setTx_sum (t : List Byte) : (setTx t s).sum = s.sum := rfl
@[simp] theorem setTx_buf (t : List Byte) : (setTx t s).buf = s.buf := rfl
@[simp] theorem setTx_meas (t : List Byte) : (setTx t s).meas = s.meas := rfl
@[simp] theorem setTx_measWritten (t : List Byte) : (setTx t s).measWritten = s.measWritten := rfl
@[simp] theorem setTx_lenErr (t : List Byte) : (setTx t s).lenErr = s.lenErr := rfl
@[simp] theorem setTx_input (t : List Byte) : (setTx t s).input = s.input := rfl
@[simp] theorem setTx_event (t : List Byte) : (setTx t s).event = s.event := rfl
@[simp] theorem setTx_tx (t : List Byte) : (setTx t s).tx = t := rfl
@[simp] theorem setTx_unitOut (t : List Byte) : (setTx t s).unitOut = s.unitOut := rfl
@[simp] theorem setTx_freeCtr (t : List Byte) : (setTx t s).freeCtr = s.freeCtr := rfl

/-! ### setUnitOut -/

@[simp] theorem setUnitOut_cfg (u : UnitOut) : (setUnitOut u s).cfg = s.cfg := rfl
@[simp] theorem setUnitOut_st (u : UnitOut) : (setUnitOut u s).st = s.st := rfl
@[simp] theorem setUnitOut_cnt (u : UnitOut) : (setUnitOut u s).cnt = s.cnt := rfl
@[simp] theorem setUnitOut_tot (u : UnitOut) : (setUnitOut u s).tot = s.tot := rfl
@[simp] theorem setUnitOut_sum (u : UnitOut) : (setUnitOut u s).sum = s.sum := rfl
@[simp] theorem setUnitOut_buf (u : UnitOut) : (setUnitOut u s).buf = s.buf := rfl
@[simp] theorem setUnitOut_meas (u : UnitOut) : (setUnitOut u s).meas = s.meas := rfl
@[simp] theorem setUnitOut_measWritten (u : UnitOut) : (setUnitOut u s).measWritten = s.measWritten := rfl
@[simp] theorem setUnitOut_lenErr (u : UnitOut) : (setUnitOut u s).lenErr = s.lenErr := rfl
@[simp] theorem setUnitOut_input (u : UnitOut) : (setUnitOut u s).input = s.input := rfl
@[simp] theorem setUnitOut_event (u : UnitOut) : (setUnitOut u s).event = s.event := rfl
@[simp] theorem setUnitOut_tx (u : UnitOut) : (setUnitOut u s).tx = s.tx := rfl
@[simp] theorem setUnitOut_unitOut (u : UnitOut) : (setUnitOut u s).unitOut = u := rfl
@[simp] theorem setUnitOut_freeCtr (u : UnitOut) : (setUnitOut u s).freeCtr = s.freeCtr := rfl

/-! ### setInput -/

@[simp] theorem setInput_cfg (l : List Input) : (setInput l s).cfg = s.cfg := rfl
@[simp] theorem setInput_st (l : List Input) : (setInput l s).st = s.st := rfl
@[simp] theorem setInput_cnt (l : List Input) : (setInput l s).cnt = s.cnt := rfl
@[simp] theorem setInput_tot (l : List Input) : (setInput l s).tot = s.tot := rfl
@[simp] theorem setInput_sum (l : List Input) : (setInput l s).sum = s.sum := rfl
@[simp] theorem setInput_buf (l : List Input) : (setInput l s).buf = s.buf := rfl
@[simp] theorem setInput_meas (l : List Input) : (setInput l s).meas = s.meas := rfl
@[simp] theorem setInput_measWritten (l : List Input) : (setInput l s).measWritten = s.measWritten := rfl
@[simp] theorem setInput_lenErr (l : List Input) : (setInput l s).lenErr = s.lenErr := rfl
@[simp] theorem setInput_input (l : List Input) : (setInput l s).input = l := rfl
@[simp] theorem setInput_event (l : List Input) : (setInput l s).event = s.event := rfl
@[simp] theorem setInput_tx (l : List Input) : (setInput l s).tx = s.tx := rfl
@[simp] theorem setInput_unitOut (l : List Input) : (setInput l s).unitOut = s.unitOut := rfl
@[simp] theorem setInput_freeCtr (l : List Input) : (setInput l s).freeCtr = s.freeCtr := rfl

/-! ### setFreeCtr -/

@[simp] theorem setFreeCtr_cfg (k : Nat) : (setFreeCtr k s).cfg = s.cfg := rfl
@[simp] theorem setFreeCtr_st (k : Nat) : (setFreeCtr k s).st = s.st := rfl
@[simp] theorem setFreeCtr_cnt (k : Nat) : (setFreeCtr k s).cnt = s.cnt := rfl
@[simp] theorem setFreeCtr_tot (k : Nat) : (setFreeCtr k s).tot = s.tot := rfl
@[simp] theorem setFreeCtr_sum (k : Nat) : (setFreeCtr k s).sum = s.sum := rfl
@[simp] theorem setFreeCtr_buf (k : Nat) : (setFreeCtr k s).buf = s.buf := rfl
@[simp] theorem setFreeCtr_meas (k : Nat) : (setFreeCtr k s).meas = s.meas := rfl
@[simp] theorem setFreeCtr_measWritten (k : Nat) : (setFreeCtr k s).measWritten = s.measWritten := rfl
@[simp] theorem setFreeCtr_lenErr (k : Nat) : (setFreeCtr k s).lenErr = s.lenErr := rfl
@[simp] theorem setFreeCtr_input (k : Nat) : (setFreeCtr k s).input = s.input := rfl
@[simp] theorem setFreeCtr_event (k : Nat) : (setFreeCtr k s).event = s.event := rfl
@[simp] theorem setFreeCtr_tx (k : Nat) : (setFreeCtr k s).tx = s.tx := rfl
@[simp] theorem setFreeCtr_unitOut (k : Nat) : (setFreeCtr k s).unitOut = s.unitOut := rfl
@[simp] theorem setFreeCtr_freeCtr (k : Nat) : (setFreeCtr k s).freeCtr = k := rfl

/-! ### toIdle -/

@[simp] theorem toIdle_cfg : (toIdle s).cfg = s.cfg := rfl
@[simp] theorem toIdle_st : (toIdle s).st = .hunt := rfl
@[simp] theorem toIdle_cnt : (toIdle s).cnt = 0 := rfl
@[simp] theorem toIdle_tot : (toIdle s).tot = 0 := rfl
@[simp] theorem toIdle_sum : (toIdle s).sum = 0 := rfl
@[simp] theorem toIdle_buf : (toIdle s).buf = [] := rfl
@[simp] theorem toIdle_meas : (toIdle s).meas = s.meas := rfl
@[simp] theorem toIdle_measWritten : (toIdle s).measWritten = s.measWritten := rfl
@[simp] theorem toIdle_lenErr : (toIdle s).lenErr = s.lenErr := rfl
@[simp] theorem toIdle_input : (toIdle s).input = s.input := rfl
@[simp] theorem toIdle_event : (toIdle s).event = s.event := rfl
@[simp] theorem toIdle_tx : (toIdle s).tx = s.tx := rfl
@[simp] theorem toIdle_unitOut : (toIdle s).unitOut = s.unitOut := rfl
@[simp] theorem toIdle_freeCtr : (toIdle s).freeCtr = s.freeCtr := rfl

end Sys2Proof.Machine
end

