-- ==== Sys2Proof/Laws/Memory.lean ====
section
/-! SUPPORT. What the memory operations do: reading after a write, the canonical form, and `BUF` as the list of exactly
`CNT` bytes. -/

namespace Sys2Proof.Machine

/-- A read after a write to the same index gives the byte written. -/
@[simp] theorem memRead_memWrite_same (m : Memory) (a : Nat) (b : Byte) : memRead (memWrite m a b) a = some b := by
  induction m with
  | nil => simp [memWrite, memRead]
  | cons x m ih =>
    simp only [memWrite]
    split
    · simp [memRead]
    · split
      · simp [memRead]
      · rename_i h; simp [memRead, h, ih]

/-- A write leaves every other index alone. -/
theorem memRead_memWrite_other (m : Memory) (a : Nat) (b : Byte) (x : Nat) (h : x ≠ a) :
    memRead (memWrite m a b) x = memRead m x := by
  induction m with
  | nil => simp [memWrite, memRead, h]
  | cons c m ih =>
    simp only [memWrite]
    split
    · simp [memRead, h]
    · split
      · rename_i _ h2; simp [memRead, h, ← h2]
      · simp [memRead, ih]

/-- Every listed address of a memory after a write is the address written or was listed before. -/
theorem mem_memWrite {m : Memory} {a : Nat} {b : Byte} {c : Host.Cell} (h : c ∈ memWrite m a b) :
    c = (a, b) ∨ c ∈ m := by
  induction m with
  | nil => exact .inl (by simpa [memWrite] using h)
  | cons x m ih =>
    simp only [memWrite] at h
    split at h
    · simpa using h
    · split at h
      · rcases List.mem_cons.1 h with h | h
        · exact .inl h
        · exact .inr (List.mem_cons_of_mem _ h)
      · rcases List.mem_cons.1 h with h | h
        · exact .inr (by simp [h])
        · exact (ih h).imp id (List.mem_cons_of_mem _)

/-- A write keeps the canonical form. -/
theorem memWrite_wf {m : Memory} (h : m.wf = true) (a : Nat) (b : Byte) : Memory.wf (memWrite m a b) = true := by
  induction m with
  | nil => simp [memWrite, Memory.wf]
  | cons x m ih =>
    simp only [Memory.wf, Bool.and_eq_true, List.all_eq_true, decide_eq_true_eq] at h
    simp only [memWrite]
    split
    · rename_i h1
      simp only [Memory.wf, Bool.and_eq_true, List.all_eq_true, decide_eq_true_eq, List.mem_cons, forall_eq_or_imp]
      exact ⟨⟨h1, fun c hc => lt_trans h1 (h.1 c hc)⟩, h.1, h.2⟩
    · rename_i h1
      split
      · rename_i h2
        simp only [Memory.wf, Bool.and_eq_true, List.all_eq_true, decide_eq_true_eq]
        exact ⟨fun c hc => h2 ▸ h.1 c hc, h.2⟩
      · rename_i h2
        simp only [Memory.wf, Bool.and_eq_true, List.all_eq_true, decide_eq_true_eq]
        refine ⟨fun c hc => ?_, ih h.2⟩
        rcases mem_memWrite hc with rfl | hc
        · simp only; omega
        · exact h.1 c hc

/-- The memory after reset has the canonical form. -/
theorem reset_memory_wf : State.reset.buf.wf = true := rfl

/-- The memory with nothing listed has the canonical form. -/
@[simp] theorem empty_memory_wf : Memory.wf [] = true := rfl

/-- `n` bytes listed at the indices from `k` on. -/
def listedFrom (k : Nat) : List Byte → Memory
  | [] => []
  | b :: bs => (k, b) :: listedFrom (k + 1) bs

/-- A memory whose indices are `k .. k+n-1` is the listing of its bytes. -/
theorem eq_listedFrom {m : Memory} {k n : Nat} (h : m.map Prod.fst = List.range' k n) :
    m = listedFrom k (m.map Prod.snd) := by
  induction m generalizing k n with
  | nil => rfl
  | cons x m ih =>
    cases n with
    | zero => simp at h
    | succ n =>
      simp only [List.map_cons, List.range'_succ, List.cons.injEq] at h
      simp only [List.map_cons, listedFrom]
      rw [← ih h.2, ← h.1]

/-- A byte beyond the listed ones is appended. -/
theorem memWrite_listedFrom (k : Nat) (bs : List Byte) (b : Byte) :
    memWrite (listedFrom k bs) (k + bs.length) b = listedFrom k (bs ++ [b]) := by
  induction bs generalizing k with
  | nil => simp [listedFrom, memWrite]
  | cons x bs ih =>
    have h1 : ¬ k + (x :: bs).length < k := by omega
    have h2 : ¬ k + (x :: bs).length = k := by simp
    simp only [listedFrom, memWrite, h1, h2, if_false, List.cons_append]
    rw [← ih (k + 1)]
    congr 2
    simp only [List.length_cons]; omega

@[simp] theorem map_fst_listedFrom (k : Nat) (bs : List Byte) :
    (listedFrom k bs).map Prod.fst = List.range' k bs.length := by
  induction bs generalizing k with
  | nil => rfl
  | cons b bs ih => simp [listedFrom, ih, List.range'_succ]

@[simp] theorem map_snd_listedFrom (k : Nat) (bs : List Byte) : (listedFrom k bs).map Prod.snd = bs := by
  induction bs generalizing k with
  | nil => rfl
  | cons b bs ih => simp [listedFrom, ih]

theorem memRead_listedFrom (k : Nat) (bs : List Byte) (i : Nat) (h : i < bs.length) :
    memRead (listedFrom k bs) (k + i) = some bs[i] := by
  induction bs generalizing k i with
  | nil => simp at h
  | cons b bs ih =>
    cases i with
    | zero => simp [listedFrom, memRead]
    | succ i =>
      have := ih (k + 1) i (by simpa using h)
      simp only [listedFrom, memRead, List.getElem_cons_succ]
      rw [if_neg (by omega), ← this]
      congr 1; omega

/-- `bufInv` says that `BUF` is the listing of exactly `CNT` bytes (10_state.md R24). -/
theorem buf_eq_listed {s : State} (h : bufInv s = true) :
    s.buf = listedFrom 0 (bufBytes s) ∧ (bufBytes s).length = s.cnt := by
  have h' : s.buf.map Prod.fst = List.range' 0 s.cnt := by
    simpa [bufInv, List.range_eq_range'] using h
  refine ⟨eq_listedFrom h', ?_⟩
  have := congrArg List.length h'
  simpa [bufBytes] using this

/-- Where `BUF` is the listing of exactly `CNT` bytes, EOF reads these bytes. -/
theorem frameBytes_of_bufInv {s : State} (h : bufInv s = true) : frameBytes s = some (bufBytes s) := by
  obtain ⟨hb, hl⟩ := buf_eq_listed h
  have key : (List.range s.cnt).map (memRead s.buf) = (bufBytes s).map some := by
    apply List.ext_getElem
    · simp [hl]
    · intro i h1 h2
      simp only [List.getElem_map, List.getElem_range]
      rw [hb]
      simpa using memRead_listedFrom 0 (bufBytes s) i (by simpa [hl] using h1)
  unfold frameBytes
  have : ∀ (l : List Nat) (bs : List Byte), l.map (memRead s.buf) = bs.map some →
      l.mapM (memRead s.buf) = some bs := by
    intro l
    induction l with
    | nil => intro bs hbs; cases bs <;> simp_all
    | cons a l ih =>
      intro bs hbs
      cases bs with
      | nil => simp at hbs
      | cons b bs =>
        simp only [List.map_cons, List.cons.injEq] at hbs
        simp [List.mapM_cons, hbs.1, ih bs hbs.2]
  exact this _ _ key

/-- The append `BUF[CNT] <- b` (20_memory.md R50) on the listing of exactly `CNT` bytes. -/
theorem append_byte {s : State} (h : bufInv s = true) (b : Byte) :
    memWrite s.buf s.cnt b = listedFrom 0 (bufBytes s ++ [b]) := by
  obtain ⟨hb, hl⟩ := buf_eq_listed h
  have := memWrite_listedFrom 0 (bufBytes s) b
  rw [← hb, hl, Nat.zero_add] at this
  exact this

end Sys2Proof.Machine
end

