-- ==== Sys2Proof/Laws/Ops.lean ====
section
/-! SUPPORT. One lemma per shared operation that says everything it can do, and what a step can do. -/

namespace Sys2Proof.Machine

/-- An operation in sequence answers a next state only through one. -/
theorem andThen_next {r : Result} {k : State → Result} {t : State} :
    andThen r k = .next t ↔ ∃ s, r = .next s ∧ k s = .next t := by
  cases r <;> simp [andThen]

@[simp] theorem quiet_next {s t : State} : quiet s = .next t ↔ t = setEvent .none s := by
  simp [quiet, eq_comm]

/-- A store answers a next state exactly at an index of `BUF`. -/
theorem storeByte_next {a : Nat} {b : Byte} {s t : State} :
    storeByte a b s = .next t ↔ a < s.cfg.maxFrame ∧ t = setBuf (memWrite s.buf a b) s := by
  unfold storeByte
  split <;> simp_all [eq_comm]

/-- A store at an index of `BUF`. -/
theorem storeByte_eq {a : Nat} {b : Byte} {s : State} (h : a < s.cfg.maxFrame) :
    storeByte a b s = .next (setBuf (memWrite s.buf a b) s) := by
  simp [storeByte, h]

/-- DEC's work answers a next state exactly where the payload has a record. -/
theorem decodeInto_next {frame : List Byte} {s t : State} :
    decodeInto frame s = .next t ↔ ∃ r, decodePayload (payloadOf s.cfg frame) = some r ∧ t = writeMeas r s := by
  unfold decodeInto
  cases decodePayload (payloadOf s.cfg frame) <;> simp [eq_comm]

/-- What the pipeline can do: drop, report the length, or write the record (44_pipeline.md R201). -/
theorem pipeline_cases (frame : List Byte) (s : State) :
    (verify frame = false ∧ pipeline frame s = .next (setEvent .corrupt s)) ∨
    (verify frame = true ∧ lengthOk s.cfg frame = false ∧
      pipeline frame s = .next (setEvent (.lenErr frame.length) (setLenErr true s))) ∨
    (verify frame = true ∧ lengthOk s.cfg frame = true ∧ ∃ r, decodePayload (payloadOf s.cfg frame) = some r ∧
      pipeline frame s = .next (setEvent (.meas r) (setWritten true (setMeas r s)))) := by
  unfold pipeline
  cases hv : verify frame with
  | false => exact .inl ⟨rfl, by simp [raiseException]⟩
  | true =>
    cases hl : lengthOk s.cfg frame with
    | false => exact .inr (.inl ⟨rfl, rfl, by simp [raiseException]⟩)
    | true =>
      obtain ⟨r, hr⟩ := decode_of_lengthOk hl
      exact .inr (.inr ⟨rfl, rfl, r, hr, by simp [decodeInto, hr, writeMeas]⟩)

/-- The event the pipeline reports is `frameEvent`. -/
theorem pipeline_event {frame : List Byte} {s t : State} (h : pipeline frame s = .next t) :
    t.event = frameEvent s.cfg frame := by
  rcases pipeline_cases frame s with ⟨hv, e⟩ | ⟨hv, hl, e⟩ | ⟨hv, hl, r, hr, e⟩ <;>
    rw [e] at h <;> cases h <;> simp [frameEvent, *]

/-- A completed frame always gives an event other than `NONE` (40_framer.md R105). -/
theorem frameEvent_ne_none (c : Config) (frame : List Byte) : frameEvent c frame ≠ .none := by
  unfold frameEvent
  split
  · simp
  · split
    · simp
    · rename_i h
      obtain ⟨r, hr⟩ := decode_of_lengthOk (c := c) (frame := frame) (by simpa using h)
      simp [hr]

/-- What EOF can do: it faults on a `BUF` that does not hold `CNT` bytes, and otherwise runs the pipeline on the
candidate frame from the idle framer. -/
theorem execEof_next {c : Byte} {s t : State} (h : execEof c s = .next t) :
    ∃ bytes, frameBytes s = some bytes ∧ pipeline (bytes ++ [c]) (toIdle s) = .next t := by
  unfold execEof at h
  split at h
  · exact ⟨_, ‹_›, h⟩
  · cases h

@[simp] theorem encoderOut_none (c : Config) : encoderOut c none = [] := rfl

@[simp] theorem validRequest_none : validRequest none = true := rfl

@[simp] theorem runEncoder_none (s : State) : runEncoder none s = .next s := rfl

@[simp] theorem runReceive_none (s : State) : runReceive none s = .next (setEvent .none s) := rfl

@[simp] theorem runReceive_some (i : Instr) (s : State) : runReceive (some i) s = exec i s := rfl

/-- The encoder's part of a clock period, unless the reserved selector stands on its ports. -/
theorem runEncoder_eq (p : Input) (s : State) (h : validRequest p.req = true) :
    runEncoder (selectEnc s.cfg p) (setTx [] s) = .next (setTx (encoderOut s.cfg p.req) s) := by
  cases hq : p.req with
  | none => simp [selectEnc, hq, runEncoder, encoderOut]
  | some r =>
    have hk : r.kind = 0 ∨ r.kind = 1 ∨ r.kind = 2 := by
      have key : ∀ k : BitVec 2, (k != 3) = true → k = 0 ∨ k = 1 ∨ k = 2 := by decide
      exact key r.kind (by simpa [validRequest, hq] using h)
    rcases hk with hk | hk | hk
    · simp [selectEnc, hq, runEncoder, encoderOut, selectRequest, requestFrame, hk]; rfl
    · simp [selectEnc, hq, runEncoder, encoderOut, selectRequest, requestFrame, hk]; rfl
    · cases he : r.enable <;>
        simp [selectEnc, hq, runEncoder, encoderOut, selectRequest, requestFrame, hk, he] <;> rfl

/-- The reserved selector ends the clock period in its refusal. -/
theorem runEncoder_reserved (p : Input) (s : State) (h : validRequest p.req = false) :
    runEncoder (selectEnc s.cfg p) (setTx [] s) = .refused .reservedSelector := by
  cases hq : p.req with
  | none => simp [validRequest, hq] at h
  | some r =>
    have hk : r.kind = 3 := by simpa [validRequest, hq] using h
    simp [selectEnc, hq, runEncoder, selectRequest, hk]; rfl

/-- A step with nothing presented is an idle clock period in which the encoder is not used. -/
theorem step_no_input {s : State} (h : s.input = []) : step s = .next (setEvent .none (setTx [] s)) := by
  simp [step, clockPeriod, fetch, h, runEncoder, runReceive, andThen, quiet]

/-- A step consumes the oldest clock period: the encoder's output stands, and the receive side's operation runs. -/
theorem step_cons {s : State} {p : Input} {rest : List Input} (h : s.input = p :: rest)
    (hq : validRequest p.req = true) :
    step s = runReceive (selectRx s.st (lastByte s) p) (setTx (encoderOut s.cfg p.req) (setInput rest s)) := by
  have e := runEncoder_eq p (setInput rest s) hq
  simp only [step, clockPeriod, fetch, h]
  simp only [setInput_cfg] at e
  rw [e]; rfl

/-- A step at which the reserved selector stands on the encoder's ports is refused. -/
theorem step_reserved {s : State} {p : Input} {rest : List Input} (h : s.input = p :: rest)
    (hq : validRequest p.req = false) : step s = .refused .reservedSelector := by
  have e := runEncoder_reserved p (setInput rest s) hq
  simp only [step, clockPeriod, fetch, h]
  simp only [setInput_cfg] at e
  rw [e]; rfl

/-- What a step can do: an idle clock period with nothing presented, or the receive side's part of the oldest clock period
beside the encoder's output. -/
theorem step_cases {s t : State} (h : step s = .next t) :
    (s.input = [] ∧ t = setEvent .none (setTx [] s)) ∨
    (∃ p rest, s.input = p :: rest ∧ validRequest p.req = true ∧
      runReceive (selectRx s.st (lastByte s) p) (setTx (encoderOut s.cfg p.req) (setInput rest s)) = .next t) := by
  cases hi : s.input with
  | nil =>
    rw [step_no_input hi] at h
    cases h
    exact .inl ⟨rfl, rfl⟩
  | cons p rest =>
    cases hq : validRequest p.req with
    | false => rw [step_reserved hi hq] at h; cases h
    | true => rw [step_cons hi hq] at h; exact .inr ⟨p, rest, rfl, hq, h⟩

/-- One more step of the host's run, through a next state. -/
theorem host_run_succ (M : Host.Core) (k : Nat) (s t : M.State) (h : M.step s = .next t) :
    Host.Core.run M (k + 1) s = Host.Core.run M k t := by
  have e : Host.Core.run M (k + 1) s =
      (match M.step s with
        | .next u => Host.Core.run M k u
        | .fault r => .fault r
        | .refused r => .refused r) := rfl
  rw [e, h]

/-- One more step of the block's run by the host, through a next state. -/
theorem core_run_succ (k : Nat) (s t : State) (h : step s = .next t) :
    Host.Core.run core (k + 1) s = Host.Core.run core k t := host_run_succ core k s t h

end Sys2Proof.Machine
end

