-- ==== Sys2Proof/Laws/Invariant.lean ====
section
/-! SUPPORT. What the state invariant R27 says in each framer state, and how to show it. -/

namespace Sys2Proof.Machine

/-- The bounds of a well-formed configuration (00_scope.md R7). -/
theorem config_bounds {c : Config} (h : c.wf = true) :
    3 ≤ c.overhead ∧ 2 ≤ c.payloadOffset ∧ c.overhead ≤ c.frameLenDec ∧ c.frameLenDec ≤ c.overhead + 255 := by
  simpa [Config.wf, and_assoc] using h

/-- `BUF` is at least 255 bytes deep (10_state.md R24). -/
theorem maxFrame_ge (c : Config) : 255 ≤ c.maxFrame := by simp [Config.maxFrame]

theorem inv_cfg {s : State} (h : s.inv = true) : s.cfg.wf = true := by
  simp only [State.inv, Bool.and_eq_true] at h
  exact h.1

theorem inv_buf {s : State} (h : s.inv = true) : bufInv s = true := by
  simp only [State.inv, framerInv, Bool.and_eq_true] at h
  exact h.2.1

/-- The invariant while hunting: idle values, nothing buffered. -/
theorem inv_hunt {s : State} (h : s.inv = true) (h1 : s.st = .hunt) :
    s.cnt = 0 ∧ s.tot = 0 ∧ s.sum = 0 ∧ s.buf = [] := by
  obtain ⟨hb, hl⟩ := buf_eq_listed (inv_buf h)
  simp only [State.inv, framerInv, h1, Bool.and_eq_true, beq_iff_eq] at h
  obtain ⟨-, -, ⟨hc, ht⟩, hs⟩ := h
  have : bufBytes s = [] := by rw [← List.length_eq_zero_iff, hl, hc]
  exact ⟨hc, ht, hs, by rw [hb, this]; rfl⟩

/-- The invariant in `LEN`: the delimiter is buffered. -/
theorem inv_len {s : State} (h : s.inv = true) (h1 : s.st = .len) :
    s.cnt = 1 ∧ s.tot = 0 ∧ bufBytes s = [delimRx] ∧ s.sum = delimRx := by
  simp only [State.inv, framerInv, h1, Bool.and_eq_true, beq_iff_eq] at h
  obtain ⟨-, -, ⟨⟨hc, ht⟩, hb⟩, hs⟩ := h
  exact ⟨hc, ht, hb, hs⟩

/-- The invariant in `DATA`: delimiter and length byte are buffered and give `TOT`. -/
theorem inv_data {s : State} (h : s.inv = true) (h1 : s.st = .data) :
    2 ≤ s.cnt ∧ s.cnt < s.tot ∧ (∃ l more, bufBytes s = delimRx :: l :: more ∧ s.tot = frameTotal s.cfg l) ∧
      s.sum.toNat = total (bufBytes s) % 256 := by
  simp only [State.inv, framerInv, h1, Bool.and_eq_true, beq_iff_eq, decide_eq_true_eq] at h
  obtain ⟨-, -, ⟨⟨⟨h2, h3⟩, h4⟩, h5⟩, h6⟩ := h
  refine ⟨h2, h3, ?_, h6⟩
  unfold totInv at h4
  split at h4
  · rename_i d l more e
    rw [e] at h5
    have hd : d = delimRx := by simpa using h5
    exact ⟨l, more, hd ▸ e, by simpa using h4⟩
  · cases h4

/-- An idle framer with a well-formed configuration meets the invariant. -/
theorem inv_of_idle {t : State} (hc : t.cfg.wf = true) (hi : idle t = true) : t.inv = true := by
  simp only [idle, Bool.and_eq_true, beq_iff_eq] at hi
  obtain ⟨⟨⟨⟨h1, h2⟩, h3⟩, h4⟩, h5⟩ := hi
  simp [State.inv, hc, framerInv, bufInv, h1, h2, h3, h4, h5]

theorem bufBytes_of_listed {t : State} {bs : List Byte} (h : t.buf = listedFrom 0 bs) : bufBytes t = bs := by
  simp [bufBytes, h]

theorem bufInv_of_listed {t : State} {bs : List Byte} (h : t.buf = listedFrom 0 bs) (hl : t.cnt = bs.length) :
    bufInv t = true := by
  simp [bufInv, h, hl, List.range_eq_range']

/-- A state in `DATA` whose buffer lists a partial frame meets the invariant. -/
theorem inv_data_of {t : State} {bs : List Byte} {l : Byte} {more : List Byte} (hc : t.cfg.wf = true)
    (h1 : t.st = .data) (hb : t.buf = listedFrom 0 bs) (hbs : bs = delimRx :: l :: more) (hl : t.cnt = bs.length)
    (ht : t.tot = frameTotal t.cfg l) (hlt : t.cnt < t.tot) (hs : t.sum.toNat = total bs % 256) : t.inv = true := by
  have e1 := bufBytes_of_listed hb
  have e2 := bufInv_of_listed hb hl
  have e3 : 2 ≤ t.cnt := by rw [hl, hbs]; simp
  have e4 : totInv t = true := by simp [totInv, e1, hbs, ht]
  simp only [State.inv, framerInv, hc, e2, h1, e3, hlt, e4, e1, hs, Bool.and_eq_true, decide_true, beq_iff_eq, true_and]
  simp [hbs]

end Sys2Proof.Machine
end

