-- ==== Sys2Proof/Laws/PerInstr.lean ====
section
/-! SUPPORT. Statements about every operation as syntax, one lemma per constructor of Instr. -/

namespace Sys2Proof.Laws.OnWireSameBytes

/-- What the wire keeps of an operation has the operation's port and bytes, and is well formed where the operation is. -/
def Statement (i : Instr) : Prop :=
  encode i.onWire = encode i ∧ ∀ c : Config, i.wf c = true → i.onWire.wf c = true

theorem skip (b : Byte) : Statement (.skip b) := ⟨rfl, fun _ h => h⟩
theorem sof : Statement .sof := ⟨rfl, fun _ h => h⟩
theorem len (l : Byte) : Statement (.len l) := ⟨rfl, fun _ h => h⟩
theorem acc (b : Byte) : Statement (.acc b) := ⟨rfl, fun _ h => h⟩
theorem eof (c : Byte) : Statement (.eof c) := ⟨rfl, fun _ h => h⟩
theorem compute (bytes : List Byte) : Statement (.compute bytes) := ⟨rfl, fun _ h => h⟩
theorem verify (frame : List Byte) : Statement (.verify frame) := ⟨rfl, fun _ h => h⟩
theorem lenchk (frame : List Byte) : Statement (.lenchk frame) := ⟨rfl, fun _ h => h⟩
theorem dec (frame : List Byte) : Statement (.dec frame) := ⟨rfl, fun _ h => h⟩
theorem decCo2 (h l : Byte) : Statement (.decCo2 h l) := ⟨rfl, fun _ h => h⟩
theorem decVoc (h l : Byte) : Statement (.decVoc h l) := ⟨rfl, fun _ h => h⟩
theorem decHum (h l : Byte) : Statement (.decHum h l) := ⟨rfl, fun _ h => h⟩
theorem decTemp (h l : Byte) : Statement (.decTemp h l) := ⟨rfl, fun _ h => h⟩
theorem decPm25 (h l : Byte) : Statement (.decPm25 h l) := ⟨rfl, fun _ h => h⟩
theorem decPm10 (h l : Byte) : Statement (.decPm10 h l) := ⟨rfl, fun _ h => h⟩
theorem decPm1 (h l : Byte) : Statement (.decPm1 h l) := ⟨rfl, fun _ h => h⟩
theorem encStart : Statement .encStart := ⟨rfl, fun _ h => h⟩

theorem encCal (current : Nat) : Statement (.encCal current) := by
  refine ⟨?_, fun c h => ?_⟩
  · simp only [Instr.onWire, encode, Machine.bodyCal, Nat.mod_mod]
  · simp only [Instr.onWire, Instr.wf, decide_eq_true_eq] at h ⊢
    exact lt_of_le_of_lt (Nat.mod_le _ _) h

theorem encDustOn : Statement .encDustOn := ⟨rfl, fun _ h => h⟩
theorem encDustOff : Statement .encDustOff := ⟨rfl, fun _ h => h⟩
theorem encReserved : Statement .encReserved := ⟨rfl, fun _ h => h⟩
theorem reset : Statement .reset := ⟨rfl, fun _ h => h⟩

end Sys2Proof.Laws.OnWireSameBytes
end

