-- ==== Sys2Proof/Laws/Run.lean ====
section
/-! SUPPORT. A run taken apart byte by byte (44_pipeline.md R205). -/

namespace Sys2Proof.Machine

@[simp] theorem run_nil (s : State) : run s [] = .next (s, []) := rfl

@[simp] theorem completed_nil : completed [] = [] := rfl

@[simp] theorem completed_append (as bs : List Event) : completed (as ++ bs) = completed as ++ completed bs := by
  simp [completed]

/-- The events `NONE` of the bytes before a frame's last one complete nothing. -/
@[simp] theorem completed_replicate_none (k : Nat) : completed (List.replicate k Event.none) = [] := by
  rw [completed, List.filter_eq_nil_iff]
  intro e he
  simp [List.eq_of_mem_replicate he]

/-- What the splitter cuts and the validator and the length check pass is a good frame. -/
theorem goodFrame_of_candidate {c : Config} {frame : List Byte} (hc : candidate c frame = true)
    (hl : lengthOk c frame = true) (hv : verify frame = true) : goodFrame c frame = true := by
  have ht := ((verify_iff frame).1 hv).2
  match frame, hc with
  | d :: l :: rest, hc =>
    simp only [candidate, Bool.and_eq_true, beq_iff_eq] at hc
    have h2 : rest.length + 2 = c.frameLenDec := by simpa [lengthOk] using hl
    have hb : l = BitVec.ofNat 8 (c.frameLenDec - c.overhead) := by
      apply BitVec.eq_of_toNat_eq
      have h3 := hc.2
      have h4 := l.isLt
      simp only [frameTotal] at h3
      simp only [BitVec.toNat_ofNat]
      omega
    have g1 : ((d :: l :: rest).head? == some delimRx) = true := by rw [hc.1]; rfl
    have g2 : ((d :: l :: rest)[1]? == some (BitVec.ofNat 8 (c.frameLenDec - c.overhead))) = true := by
      rw [← hb]
      show (some l == some l) = true
      simp
    unfold goodFrame
    rw [g1, g2, hl, ht]
    rfl

/-- A run of one more byte, built. -/
theorem run_cons_next {s t u : State} {b : Byte} {bs : List Byte} {es : List Event} (h : rxStep s b = .next t)
    (h2 : run t bs = .next (u, es)) : run s (b :: bs) = .next (u, t.event :: es) := by
  simp only [run, h, h2]

/-- A run of one more byte, taken apart. -/
theorem run_cons_inv {s u : State} {b : Byte} {bs : List Byte} {es : List Event}
    (h : run s (b :: bs) = .next (u, es)) :
    ∃ t es', rxStep s b = .next t ∧ run t bs = .next (u, es') ∧ es = t.event :: es' := by
  simp only [run] at h
  split at h
  · rename_i t ht
    split at h
    · rename_i h2
      cases h
      exact ⟨t, _, ht, h2, rfl⟩
    all_goals cases h
  all_goals cases h

end Sys2Proof.Machine
end

