-- ==== Sys2Proof/Tests/Slice0.lean ====
section
/-! SUPPORT. The model's own tests. Expected values are those of spec/95_test_vectors.md, by the vector named, or written
out by hand from the rule named; none comes from the model. -/

namespace Sys2Proof.Tests

open Machine

/-- The state a step leaves, where it leaves one. -/
def stateOf : Result → Option State
  | .next s => some s
  | .fault _ => none
  | .refused _ => none

/-- `(ST, CNT, TOT, SUM)`, the bytes of `BUF` and the event, as the vectors write a state. -/
structure View where
  st : FramerState
  cnt : Nat
  tot : Nat
  sum : Byte
  bytes : List Byte
  event : Event
  deriving DecidableEq

/-- What a vector shows of the state a step leaves. -/
def view (r : Result) : Option View :=
  (stateOf r).map fun s => ⟨s.st, s.cnt, s.tot, s.sum, bufBytes s, s.event⟩

/-- A freshly reset block. -/
def fresh : State := State.reset

/-- A freshly reset block in the alternative profile. -/
def freshAlt : State := { State.reset with cfg := Config.alternative }

/-- A block whose buffer lists `bytes` from index 0. -/
def filled (s : State) (st : FramerState) (tot : Nat) (sum : Byte) (bytes : List Byte) : State :=
  { s with st := st, cnt := bytes.length, tot := tot, sum := sum, buf := (List.range bytes.length).zip bytes }

/-- A block with one value presented on its input ports. -/
def presenting (i : Input) (s : State) : State := { s with input := [i] }

/-- A clock period without a byte. -/
def idleInput (b : Byte) (q : Option Request) : Input := ⟨false, false, b, q⟩

/-- The first 17 bytes of `FIX` and of `COR`. -/
def fix17 : List Byte :=
  [0x16, 0x0b, 0x01, 0x01, 0x9a, 0x00, 0x67, 0x01, 0xea, 0x03, 0x04, 0x00, 0x36, 0x00, 0x3c, 0x00, 0x20]

/-- `FIX`, the source's frame. -/
def fix : List Byte := fix17 ++ [0xb4]

/-- `COR`, the corrected frame. -/
def cor : List Byte := fix17 ++ [0x58]

/-- The record of `COR` (S1a). -/
def corMeas : Meas :=
  { co2 := 410, voc := 103, humX10 := 490, tempX10 := 272, pm25 := 54, pm10 := 60, pm10Present := true, pm1 := 32,
    pm1Present := true }

/-- The frame of A1, in the alternative profile. -/
def a1 : List Byte :=
  [0x16, 0x0e, 0x01, 0x9a, 0x00, 0x67, 0x01, 0xea, 0x03, 0x04, 0x00, 0x36, 0x00, 0x3c, 0x00, 0x20, 0x56]

/-- `(LEN, 1, 0, 16)`. -/
def inLen (s : State) : State := filled s .len 0 0x16 [0x16]

/-- `(DATA, 17, 18, a8)`, one byte before the end of `FIX` or `COR`. -/
def atLast : State := filled fresh .data 18 0xa8 fix17

/-- `(DATA, 6, 7, 16)`, one byte before the end of the frame of `L = 0`. -/
def atLast7 : State := filled fresh .data 7 0x16 [0x16, 0x00, 0x00, 0x00, 0x00, 0x00]

/-- `(DATA, 2, 3, 16)`, the shortest frame of the alternative profile. -/
def atLast3 : State := filled freshAlt .data 3 0x16 [0x16, 0x00]

/-! ### Well-formedness: an ill-formed term for each check -/

/-- R101: `0x16` is not a byte SKIP takes. -/
theorem test_wf_skip_delimiter : (Instr.skip 0x16).wf Config.decided = false := by decide

/-- R151: LENCHK takes a verified frame. -/
theorem test_wf_lenchk_unverified : (Instr.lenchk fix).wf Config.decided = false := by decide

/-- R24: LENCHK takes a frame that fits `BUF`. -/
theorem test_wf_lenchk_too_long : (Instr.lenchk (List.replicate 263 0)).wf Config.decided = false := by decide +kernel

/-- R106: DEC takes a frame that starts with `0x16`. -/
theorem test_wf_dec_delimiter : (Instr.dec ((0x17 : Byte) :: cor.tail)).wf Config.decided = false := by decide

/-- R106: DEC takes a frame whose length byte gives its length. -/
theorem test_wf_dec_length_byte : (Instr.dec (cor.set 1 0x0c)).wf Config.decided = false := by decide

/-- R151: DEC takes a frame of the accepted length. -/
theorem test_wf_dec_length : (Instr.dec [0x16, 0, 0, 0, 0, 0, 0xea]).wf Config.decided = false := by decide

/-- R150: DEC takes a verified frame. -/
theorem test_wf_dec_checksum : (Instr.dec fix).wf Config.decided = false := by decide

/-- R150: `COR` is a frame DEC takes. -/
theorem test_wf_dec_good : (Instr.dec cor).wf Config.decided = true := by decide

/-- R183: ENC.CAL takes a number that a port of 32 bits can carry. -/
theorem test_wf_encCal : (Instr.encCal 4294967296).wf Config.decided = false ∧
    (Instr.encCal 4294967295).wf Config.decided = true := by decide

/-- R7: both profiles are well formed, and each bound refuses a configuration. -/
theorem test_wf_config : Config.decided.wf = true ∧ Config.alternative.wf = true ∧
    Config.wf { overhead := 2, payloadOffset := 2, calW := 32 } = false ∧ Config.wf { overhead := 7, payloadOffset := 1, calW := 32 } = false ∧
    Config.wf { overhead := 18, payloadOffset := 2, calW := 32 } = false ∧
    Config.wf { overhead := 3, payloadOffset := 244, calW := 32 } = false := by decide

/-- R6: `FRAME_LEN_DEC` and `MAXFRAME` of the two profiles. -/
theorem test_config_lengths : Config.decided.frameLenDec = 18 ∧ Config.alternative.frameLenDec = 17 ∧
    Config.decided.maxFrame = 262 ∧ Config.alternative.maxFrame = 258 := by decide

/-! ### Decoding: the words of the table's encodings -/

/-- What is read at a port, in the decided profile. -/
def read (p : Port) (bytes : List Byte) : Option Instr := (decode Config.decided p bytes).toOption

/-- R80: the receive-side selection, a byte of each row. -/
theorem test_decode_rx : read (.rx .hunt false) [0x11] = some (.skip 0x11) ∧
    read (.rx .hunt true) [0x16] = some .sof ∧ read (.rx .len false) [0x16] = some (.len 0x16) ∧
    read (.rx .data false) [0x16] = some (.acc 0x16) ∧ read (.rx .data true) [0x16] = some (.eof 0x16) := by decide

/-- R182 to R184: the transmit rows' words, with the operands of EV3 and EV6. -/
theorem test_decode_tx : read .tx [0x11, 0x02, 0x01, 0x00, 0xec] = some .encStart ∧
    read .tx [0x11, 0x03, 0x03, 0x01, 0x90, 0x58] = some (.encCal 400) ∧
    read .tx [0x11, 0x03, 0x03, 0x11, 0x70, 0x68] = some (.encCal 4464) ∧
    read .tx [0x11, 0x03, 0x0c, 0x02, 0x1e, 0xc0] = some .encDustOn ∧
    read .tx [0x11, 0x03, 0x0c, 0x01, 0x1e, 0xc1] = some .encDustOff ∧ read .tx [] = some .encReserved := by decide

/-- The field rows: two payload bytes, high byte first (R76). -/
theorem test_decode_fields : read (.unit .co2) [0x01, 0x9a] = some (.decCo2 0x01 0x9a) ∧
    read (.unit .voc) [0x00, 0x67] = some (.decVoc 0x00 0x67) ∧
    read (.unit .hum) [0x01, 0xea] = some (.decHum 0x01 0xea) ∧
    read (.unit .temp) [0x03, 0x04] = some (.decTemp 0x03 0x04) ∧
    read (.unit .pm25) [0x00, 0x36] = some (.decPm25 0x00 0x36) ∧
    read (.unit .pm10) [0x00, 0x3c] = some (.decPm10 0x00 0x3c) ∧
    read (.unit .pm1) [0x00, 0x20] = some (.decPm1 0x00 0x20) := by decide

/-- The rows of the function units, DEC among them, and RESET. -/
theorem test_decode_units : read (.unit .compute) [0xff, 0x01] = some (.compute [0xff, 0x01]) ∧
    read (.unit .verify) fix = some (.verify fix) ∧ read (.unit .lenchk) cor = some (.lenchk cor) ∧
    read (.unit .dec) cor = some (.dec cor) ∧ read .sys [] = some .reset := by decide

/-- Words that are no operation are rejected by name. -/
theorem test_decode_rejects :
    decode Config.decided .tx [0x16, 0x02, 0x01, 0x00, 0xe7] = .error .notHead ∧
    decode Config.decided .tx [0x11, 0x02, 0x01, 0x00, 0xed] = .error .badChecksum ∧
    decode Config.decided .tx [0x11, 0x02, 0x02, 0x00, 0xeb] = .error .unknownRequest ∧
    decode Config.decided .tx [0x11, 0x03, 0x0c, 0x03, 0x1e, 0xbf] = .error .unknownRequest ∧
    decode Config.decided (.rx .hunt false) [] = .error .noByte ∧
    decode Config.decided (.rx .hunt false) [0x16, 0x0b] = .error .extraBytes ∧
    decode Config.decided (.unit .dec) fix = .error .badChecksum ∧
    decode Config.decided (.unit .dec) (cor.set 1 0x0c) = .error .notCandidate ∧
    decode Config.decided (.unit .dec) [0x16, 0, 0, 0, 0, 0, 0xea] = .error .frameLength ∧
    decode Config.decided (.unit .co2) [0x01] = .error .fieldLength := by decide

/-- R24: a frame longer than `BUF` is rejected. -/
theorem test_decode_rejects_too_long :
    decode Config.decided (.unit .lenchk) (List.replicate 263 0) = .error .tooLong := by decide +kernel

/-- The selection on the ports (R81, R84, R203, R225): RESET before any byte, an idle period selects nothing. -/
theorem test_select : selectRx .data true ⟨true, true, 0x58, none⟩ = some .reset ∧
    selectRx .data true (byteInput 0x58) = some (.eof 0x58) ∧ selectRx .data true (idleInput 0x58 none) = none ∧
    selectEnc Config.decided (byteInput 0x58) = none ∧
    selectEnc Config.decided (requestInput 1 70000 true) = some (.encCal 70000) ∧
    selectEnc Config.decided (requestInput 2 7 false) = some .encDustOff ∧
    selectEnc Config.decided (requestInput 3 7 false) = some .encReserved := by decide

/-- The host's words: the first byte in bits 7..0. -/
theorem test_table_words : decodeTableWord 8 0x16 = some .sof ∧ decodeTableWord 8 0xff = some (.skip 0xff) ∧
    decodeTableWord 40 0xec00010211 = some .encStart ∧ decodeTableWord 48 0x687011030311 = some (.encCal 4464) ∧
    decodeTableWord 48 0xc01e020c0311 = some .encDustOn ∧ decodeTableWord 48 0xc11e010c0311 = some .encDustOff ∧
    decodeTableWord 40 0 = none := by decide

/-- A word placed with `withFetchWord` runs in the very next step (FV4, EV7). -/
theorem test_withFetchWord : view (step (fresh.withFetchWord 8 0x16)) = some ⟨.len, 1, 0, 0x16, [0x16], .none⟩ ∧
    (stateOf (step (atLast.withFetchWord 48 0xc01e020c0311))).map State.tx =
      some [0x11, 0x03, 0x0c, 0x02, 0x1e, 0xc0] := by decide

/-! ### The framer -/

/-- FV2. -/
theorem test_skip_outbound_head : view (step (presenting (byteInput 0x11) fresh)) =
    some ⟨.hunt, 0, 0, 0, [], .none⟩ := by decide

/-- FV4. -/
theorem test_sof : view (step (presenting (byteInput 0x16) fresh)) =
    some ⟨.len, 1, 0, 0x16, [0x16], .none⟩ := by decide

/-- FV7. -/
theorem test_len_max : view (step (presenting (byteInput 0xff) (inLen fresh))) =
    some ⟨.data, 2, 262, 0x15, [0x16, 0xff], .none⟩ := by decide

/-- FV6 in the alternative profile. -/
theorem test_len_alternative : view (step (presenting (byteInput 0x00) (inLen freshAlt))) =
    some ⟨.data, 2, 3, 0x16, [0x16, 0x00], .none⟩ := by decide

/-- FV9. -/
theorem test_acc : view (step (presenting (byteInput 0x01) (filled fresh .data 18 0x21 [0x16, 0x0b]))) =
    some ⟨.data, 3, 18, 0x22, [0x16, 0x0b, 0x01], .none⟩ := by decide

/-- R107: the delimiter's value is data inside a frame; the sum wraps. -/
theorem test_acc_delimiter_is_data :
    view (step (presenting (byteInput 0x16) (filled fresh .data 18 0xf0 [0x16, 0x0b, 0xcf]))) =
      some ⟨.data, 4, 18, 0x06, [0x16, 0x0b, 0xcf, 0x16], .none⟩ := by decide

/-- FV11 and S2, and A1 in the alternative profile: the whole pipeline accepts a good frame. -/
theorem test_eof_meas : view (step (presenting (byteInput 0x58) atLast)) =
      some ⟨.hunt, 0, 0, 0, [], .meas corMeas⟩ ∧
    view (step (presenting (byteInput 0x56) (filled freshAlt .data 17 0xaa (a1.take 16)))) =
      some ⟨.hunt, 0, 0, 0, [], .meas corMeas⟩ := by decide

/-- FV12 and S1b: the source's own trailer is dropped; FV13: a length error, and the sticky bit. -/
theorem test_eof_exceptions : view (step (presenting (byteInput 0xb4) atLast)) =
      some ⟨.hunt, 0, 0, 0, [], .corrupt⟩ ∧
    view (step (presenting (byteInput 0xea) atLast7)) = some ⟨.hunt, 0, 0, 0, [], .lenErr 7⟩ ∧
    (stateOf (step (presenting (byteInput 0xea) atLast7))).map State.lenErr = some true := by decide

/-! ### The checksum validator -/

/-- What a unit run by itself returns. -/
def outOf (i : Instr) : Option UnitOut := (stateOf (exec i fresh)).map State.unitOut

/-- CK1 to CK5c. -/
theorem test_compute : outOf (.compute []) = some (.byte 0x00) ∧ outOf (.compute [0x01]) = some (.byte 0xff) ∧
    outOf (.compute [0x80]) = some (.byte 0x80) ∧ outOf (.compute [0xff, 0x01]) = some (.byte 0x00) ∧
    outOf (.compute [0xff, 0xff]) = some (.byte 0x02) ∧ outOf (.compute [0x7f]) = some (.byte 0x81) ∧
    outOf (.compute fix17) = some (.byte 0x58) := by decide

/-- The VERIFY vectors after the CK table; the empty sequence by D20. -/
theorem test_verify : outOf (.verify cor) = some (.flag true) ∧ outOf (.verify fix) = some (.flag false) ∧
    outOf (.verify [0x00]) = some (.flag true) ∧ outOf (.verify [0x01]) = some (.flag false) ∧
    outOf (.verify []) = some (.flag false) ∧ outOf (.verify [0xff, 0x01]) = some (.flag true) := by decide

/-! ### The decoder -/

/-- The record and the written bit after an operation run by itself. -/
def measOf (i : Instr) : Option (Meas × Bool) := (stateOf (exec i fresh)).map fun s => (s.meas, s.measWritten)

/-- R151: length 18 passes, 17 raises `LENERR(17)`. -/
theorem test_lenchk : (stateOf (exec (.lenchk cor) fresh)).map (fun s => (s.event, s.lenErr)) = some (.none, false) ∧
    (stateOf (exec (.lenchk a1) fresh)).map (fun s => (s.event, s.lenErr)) = some (.lenErr 17, true) := by decide

/-- S1a. -/
theorem test_dec : measOf (.dec cor) = some (corMeas, true) := by decide

/-- DV1 and DV2: the extremes of every field. -/
theorem test_dec_extremes :
    decodePayload (List.replicate 14 0x00) = some
      { co2 := 0, voc := 0, humX10 := 0, tempX10 := -500, pm25 := 0, pm10 := 0, pm10Present := false, pm1 := 0,
        pm1Present := false } ∧
    decodePayload (List.replicate 14 0xff) = some
      { co2 := 65535, voc := 65535, humX10 := 65535, tempX10 := 65035, pm25 := 65535, pm10 := 65535,
        pm10Present := true, pm1 := 65535, pm1Present := true } := by decide

/-- DV6 and DV7, the unscaled fields. -/
theorem test_decCo2 : (measOf (.decCo2 0x01 0x9a)).map (fun r => r.1.co2) = some 410 := by decide
theorem test_decVoc : (measOf (.decVoc 0x01 0x00)).map (fun r => r.1.voc) = some 256 := by decide
theorem test_decHum : (measOf (.decHum 0x01 0xea)).map (fun r => r.1.humX10) = some 490 := by decide
theorem test_decPm25 : (measOf (.decPm25 0x00 0x36)).map (fun r => r.1.pm25) = some 54 := by decide

/-- DV6. -/
theorem test_decTemp : (measOf (.decTemp 0x03 0x04)).map (fun r => r.1.tempX10) = some 272 := by decide

/-- DV4 and P3: -0.1 degrees is the pattern `0x1ffff`. -/
theorem test_decTemp_negative : (measOf (.decTemp 0x01 0xf3)).map (fun r => r.1.tempX10) = some 0x1ffff := by decide

/-- S5: 0 is absent, 1 is present; DV7: a zero low byte is not the sentinel. -/
theorem test_decPm10 : (measOf (.decPm10 0x00 0x00)).map (fun r => pm10Value r.1) = some none ∧
    (measOf (.decPm10 0x01 0x00)).map (fun r => pm10Value r.1) = some (some 256) := by decide
theorem test_decPm1 : (measOf (.decPm1 0x00 0x00)).map (fun r => pm1Value r.1) = some none ∧
    (measOf (.decPm1 0x00 0x01)).map (fun r => pm1Value r.1) = some (some 1) := by decide

/-- R161: -1 tenth is displayed "-0.1", 272 tenths "27.2". -/
theorem test_displayTenths : displayTenths (-1) = (true, 0, 1) ∧ displayTenths 272 = (false, 27, 2) ∧
    displayTenths (-500) = (true, 50, 0) := by decide

/-! ### The encoder -/

/-- The frame of a request presented on the encoder's ports. -/
def sent (kind : BitVec 2) (n : Nat) (e : Bool) : Option (List Byte) :=
  (stateOf (step (presenting (requestInput kind n e) atLast))).map State.tx

/-- EV1. -/
theorem test_encStart : sent 0 70000 true = some [0x11, 0x02, 0x01, 0x00, 0xec] := by decide

/-- EV3 and EV4. -/
theorem test_encCal : sent 1 400 false = some [0x11, 0x03, 0x03, 0x01, 0x90, 0x58] ∧
    sent 1 65535 false = some [0x11, 0x03, 0x03, 0xff, 0xff, 0xeb] := by decide

/-- EV5 and EV6: the operand modulo 65536. -/
theorem test_encCal_modulo : sent 1 65536 false = some [0x11, 0x03, 0x03, 0x00, 0x00, 0xe9] ∧
    sent 1 70000 false = some [0x11, 0x03, 0x03, 0x11, 0x70, 0x68] := by decide

/-- 93 P4: a port of 16 bits gives the same frame. -/
theorem test_narrow_port : encoderOut { Config.decided with calW := 16 } (some ⟨1, 70000, false⟩) =
    [0x11, 0x03, 0x03, 0x11, 0x70, 0x68] := by decide

/-- EV7. -/
theorem test_encDustOn : sent 2 0 true = some [0x11, 0x03, 0x0c, 0x02, 0x1e, 0xc0] := by decide

/-- EV8. -/
theorem test_encDustOff : sent 2 0 false = some [0x11, 0x03, 0x0c, 0x01, 0x1e, 0xc1] := by decide

/-- EV9: no frame, refused. -/
theorem test_encReserved : step (presenting (requestInput 3 0 false) atLast) = .refused .reservedSelector ∧
    requestFrame 3 0 false = [] := ⟨rfl, rfl⟩

/-! ### Reset and the ports -/

/-- `(DATA, 4, 18, 23)` with both bits set, the start of Z1. -/
def z1 : State := { filled fresh .data 18 0x23 [0x16, 0x0b, 0x01, 0x01] with lenErr := true, measWritten := true }

/-- Z1, and R225: the byte presented with `rst = 1` is lost. -/
theorem test_reset : view (step (presenting ⟨true, true, 0x16, none⟩ z1)) = some ⟨.hunt, 0, 0, 0, [], .none⟩ ∧
    (stateOf (step (presenting ⟨true, true, 0x16, none⟩ z1))).map (fun s => (s.lenErr, s.measWritten)) =
      some (false, false) := by decide

/-- R235: a byte, and RESET, in the clock period of a request (FV11 with EV7, Z1 with EV1). -/
theorem test_request_beside_receive :
    view (step (presenting ⟨false, true, 0x58, some ⟨2, 0, true⟩⟩ atLast)) =
      some ⟨.hunt, 0, 0, 0, [], .meas corMeas⟩ ∧
    (stateOf (step (presenting ⟨false, true, 0x58, some ⟨2, 0, true⟩⟩ atLast))).map State.tx =
      some [0x11, 0x03, 0x0c, 0x02, 0x1e, 0xc0] ∧
    (stateOf (step (presenting ⟨true, false, 0x00, some ⟨0, 0, true⟩⟩ z1))).map State.tx =
      some [0x11, 0x02, 0x01, 0x00, 0xec] := by decide

/-- R203: an idle clock period changes nothing and clears the strobe. -/
theorem test_idle_period : step (presenting (idleInput 0x16 none) { atLast with event := .corrupt }) =
    .next atLast := rfl

/-- R203, R220: the strobes and codes of the four events. -/
theorem test_ports : frameDrop { fresh with event := .corrupt } = true ∧
    measValid { fresh with event := .corrupt } = false ∧ lenErrN { fresh with event := .lenErr 262 } = some 262 ∧
    lenErrStrobe { fresh with event := .lenErr 262 } = true ∧ eventCode (.meas corMeas) = 3 ∧
    measurement fresh = none ∧ statusReg z1 = 1 ∧ stCode .data = 2 := by decide

/-- R206(1): COR and A1 are accepted in their profiles, FIX is not. -/
theorem test_goodFrame : goodFrame Config.decided cor = true ∧ goodFrame Config.alternative a1 = true ∧
    goodFrame Config.decided fix = false ∧ goodFrame Config.decided a1 = false := by decide

/-- R112 and R113, FV18: one candidate frame and a new partial frame. -/
theorem test_split : split Config.decided [0x00, 0xff, 0x16, 0x00, 0xaa, 0xbb, 0xcc, 0xdd, 0xee, 0x16, 0x01] =
      [[0x16, 0x00, 0xaa, 0xbb, 0xcc, 0xdd, 0xee]] ∧
    leftOver Config.decided [0x00, 0xff, 0x16, 0x00, 0xaa, 0xbb, 0xcc, 0xdd, 0xee, 0x16, 0x01] = [0x16, 0x01] := by
  decide

/-! ### Witnesses: the hypotheses of the statements can be met -/

theorem witness_SkipWritesNoRegister : fresh.st = .hunt ∧ (0x15 : Byte) ≠ 0x16 := by decide

theorem witness_SofOpensFrame : fresh.st = .hunt ∧ freshAlt.st = .hunt := by decide

theorem witness_LenSetsFrameTotal : 3 ≤ freshAlt.cfg.overhead ∧ (inLen freshAlt).st = .len := by decide

/-- The last byte of `BUF`, the last byte before the trailer, and a period without a byte. -/
theorem witness_AccAppendsByte :
    ({ fresh with cnt := 261 } : State).cnt < ({ fresh with cnt := 261 } : State).cfg.maxFrame ∧
    ((filled fresh .data 18 0x88 (fix17.take 16)).st = .data ∧
      (filled fresh .data 18 0x88 (fix17.take 16)).cnt + 1 < (filled fresh .data 18 0x88 (fix17.take 16)).tot) ∧
    (atLast.st = .data ∧ validRequest (some ⟨0, 0, true⟩) = true ∧
      (presenting (idleInput 0x16 (some ⟨0, 0, true⟩)) atLast).input = ⟨false, false, 0x16, some ⟨0, 0, true⟩⟩ :: []) := by
  decide

/-- The accepted length, and the shortest frames of both profiles. -/
theorem witness_EofEmitsCandidateFrame :
    (atLast.inv = true ∧ atLast.st = .data ∧ atLast.cnt + 1 = atLast.tot) ∧
    (atLast7.inv = true ∧ atLast7.st = .data ∧ atLast7.cnt + 1 = atLast7.tot) ∧
    (atLast3.inv = true ∧ atLast3.st = .data ∧ atLast3.cnt + 1 = atLast3.tot) := by decide

theorem witness_CorruptFrameIsDropped : atLast.inv = true ∧ atLast.st = .data ∧ atLast.cnt + 1 = atLast.tot ∧
    verify (bufBytes atLast ++ [0xb4]) = false := by decide

/-- Lengths 7 and 3. -/
theorem witness_WrongLengthSetsLenErr :
    (atLast7.inv = true ∧ atLast7.st = .data ∧ atLast7.cnt + 1 = atLast7.tot ∧
      verify (bufBytes atLast7 ++ [0xea]) = true ∧ atLast7.tot ≠ atLast7.cfg.frameLenDec) ∧
    (atLast3.inv = true ∧ atLast3.st = .data ∧ atLast3.cnt + 1 = atLast3.tot ∧
      verify (bufBytes atLast3 ++ [0xea]) = true ∧ atLast3.tot ≠ atLast3.cfg.frameLenDec) := by decide

theorem witness_GoodFrameIsMeasured : atLast.inv = true ∧ atLast.st = .data ∧ atLast.cnt + 1 = atLast.tot ∧
    verify (bufBytes atLast ++ [0x58]) = true ∧ atLast.tot = atLast.cfg.frameLenDec := by decide

/-- A frame for each clause, of lengths 18 and 17 (`COR`, `FIX`, A1). -/
theorem witness_PipelineStopsAtTheFirstFailure : verify fix = false ∧
    (verify a1 = true ∧ a1.length ≠ fresh.cfg.frameLenDec) ∧
    (verify cor = true ∧ cor.length = fresh.cfg.frameLenDec) := by decide

/-- Each clause at its boundary: the first index outside `BUF`, the one byte below `CNT` missing, 17 and 19 bytes. -/
theorem witness_ImpossibleAccessesFault :
    ({ fresh with cnt := 262 } : State).cfg.maxFrame ≤ ({ fresh with cnt := 262 } : State).cnt ∧
    (0 < ({ fresh with cnt := 1 } : State).cnt ∧ memRead ({ fresh with cnt := 1 } : State).buf 0 = none) ∧
    (cor.take 17).length ≠ fresh.cfg.frameLenDec ∧ (cor ++ [0]).length ≠ fresh.cfg.frameLenDec := by decide

theorem witness_RunningSumDecidesVerify : atLast.inv = true ∧ atLast.st = .data := by decide

theorem witness_ChecksumLaws : [(0x01 : Byte), 0x9a].Perm [0x9a, 0x01] := List.Perm.swap _ _ _

/-- CK6 at the first and the last byte, and a transposition. -/
theorem witness_SingleByteTamperIsDetected :
    (0 < cor.length ∧ verify cor = true ∧ (0x17 : Byte) ≠ cor[0]!) ∧
    (17 < cor.length ∧ verify cor = true ∧ (0xb4 : Byte) ≠ cor[17]!) ∧
    [(0xff : Byte), 0x01].Perm [0x01, 0xff] ∧ verify [0xff, 0x01] = true :=
  ⟨by decide, by decide, List.Perm.swap _ _ _, by decide⟩

/-- Lengths 18, and 17 and 19 beside it. -/
theorem witness_LenchkTestsPayloadLength : cor.length = fresh.cfg.frameLenDec ∧
    a1.length ≠ fresh.cfg.frameLenDec ∧ (cor ++ [0]).length ≠ fresh.cfg.frameLenDec := by decide

theorem witness_DecWritesTheRecord : cor.length = fresh.cfg.frameLenDec ∧ verify cor = true ∧ a1.length = freshAlt.cfg.frameLenDec ∧
    (∀ k, (fun j => (cor.getD (fresh.cfg.payloadOffset + j) 0).toNat) k =
      (cor.getD (fresh.cfg.payloadOffset + k) 0).toNat) := ⟨by decide, by decide, by decide, fun _ => rfl⟩

/-- The records SentinelZeroMeansAbsent quantifies over: one for an absent and one for a present word. -/
theorem witness_SentinelZeroMeansAbsent :
    (unwrittenMeas.pm10 = 0 ∧ unwrittenMeas.pm10Present = false ∧ unwrittenMeas.pm1 = 0 ∧
      unwrittenMeas.pm1Present = false) ∧
    (corMeas.pm10 = be16 0x00 0x3c ∧ corMeas.pm10Present = true ∧ corMeas.pm1 = be16 0x00 0x20 ∧
      corMeas.pm1Present = true) := by decide

theorem witness_StartStreamingFrame :
    (presenting ⟨false, true, 0x58, some ⟨0, 70000, true⟩⟩ atLast).input =
      ⟨false, true, 0x58, some ⟨0, 70000, true⟩⟩ :: [] := rfl

/-- The narrowest port, and the request beside a byte. -/
theorem witness_CalibrateFrame : 16 ≤ ({ Config.decided with calW := 16 } : Config).calW ∧
    (presenting ⟨false, true, 0x58, some ⟨1, 70000, true⟩⟩ atLast).input =
      ⟨false, true, 0x58, some ⟨1, 70000, true⟩⟩ :: [] := ⟨by decide, rfl⟩

theorem witness_DustFrames :
    (presenting (requestInput 2 0 true) atLast).input = ⟨false, false, 0, some ⟨2, 0, true⟩⟩ :: [] ∧
    (presenting (requestInput 2 0 false) atLast).input = ⟨false, false, 0, some ⟨2, 0, false⟩⟩ :: [] := ⟨rfl, rfl⟩

theorem witness_ReservedSelectorIsRefused :
    (presenting ⟨true, true, 0x58, some ⟨3, 0, false⟩⟩ atLast).input =
      ⟨true, true, 0x58, some ⟨3, 0, false⟩⟩ :: [] := rfl

theorem witness_EncodedFramesVerify : (0 : BitVec 2) ≠ 3 ∧ (1 : BitVec 2) ≠ 3 ∧ (2 : BitVec 2) ≠ 3 := by decide

/-- EV2 and EV5: two operands with one frame; and the two flags of a request that does not read them. -/
theorem witness_EncoderIsInjective : requestFrame 1 0 false = requestFrame 1 65536 true ∧
    requestFrame 2 0 true = requestFrame 2 7 true ∧ requestFrame 3 0 true = requestFrame 3 7 false := by decide

theorem witness_EncoderAndReceiverAreIndependent :
    ((presenting ⟨false, true, 0x58, some ⟨1, 400, false⟩⟩ atLast).input =
        ⟨false, true, 0x58, some ⟨1, 400, false⟩⟩ :: [] ∧ validRequest (some ⟨1, 400, false⟩) = true ∧
      ∃ u, step (presenting (byteInput 0x58) atLast) = .next u) ∧
    ∃ t, rxStep atLast 0x58 = .next t := ⟨⟨rfl, by decide, _, rfl⟩, _, rfl⟩

theorem witness_ResetClearsEveryRegister :
    validRequest (some ⟨0, 0, true⟩) = true ∧ validRequest none = true ∧
    (presenting ⟨true, true, 0x16, some ⟨0, 0, true⟩⟩ z1).input = ⟨true, true, 0x16, some ⟨0, 0, true⟩⟩ :: [] ∧
    (presenting ⟨true, false, 0x16, none⟩ z1).input = ⟨true, false, 0x16, none⟩ :: [] := by decide

theorem witness_IdlePeriodChangesNothing :
    (validRequest (some ⟨2, 0, true⟩) = true ∧
      (presenting (idleInput 0x16 (some ⟨2, 0, true⟩)) z1).input = ⟨false, false, 0x16, some ⟨2, 0, true⟩⟩ :: []) ∧
    z1.input = [] := by decide

/-- A period without a byte in which the encoder is used, and none. -/
theorem witness_NoTimeout :
    (∀ p ∈ (presenting (requestInput 0 0 true) z1).input,
      p.rst = false ∧ p.rxValid = false ∧ validRequest p.req = true) ∧
    (∀ p ∈ z1.input, p.rst = false ∧ p.rxValid = false ∧ validRequest p.req = true) := by decide

theorem witness_OneStrobePerStep : ({ fresh with event := .lenErr 262 } : State).event = .lenErr 262 := rfl

/-- A byte the decoder reads, beside a request. -/
theorem witness_StepRunsTheSelectedOperation : validRequest (some ⟨2, 0, true⟩) = true ∧
    (presenting ⟨false, true, 0x58, some ⟨2, 0, true⟩⟩ atLast).input = ⟨false, true, 0x58, some ⟨2, 0, true⟩⟩ :: [] ∧
    decode atLast.cfg (.rx atLast.st (lastByte atLast)) [0x58] = .ok (.eof 0x58) := by decide

theorem witness_StepIsTotal :
    (presenting ⟨false, true, 0x58, some ⟨2, 0, true⟩⟩ atLast).inv = true ∧
    ∀ p, (presenting ⟨false, true, 0x58, some ⟨2, 0, true⟩⟩ atLast).input.head? = some p → validRequest p.req = true :=
  ⟨by decide, fun p h => by cases h; rfl⟩

theorem witness_StepKeepsTheStateInvariant :
    ((presenting (byteInput 0x58) atLast).inv = true ∧
      ∃ t, step (presenting (byteInput 0x58) atLast) = .next t) ∧
    (z1.cfg.wf = true ∧ ∃ t, exec .reset z1 = .next t) := ⟨⟨by decide, _, rfl⟩, by decide, _, rfl⟩

theorem witness_StepKeepsMemoryCanonical :
    (presenting (byteInput 0x01) z1).buf.wf = true ∧
    ∃ t, step (presenting (byteInput 0x01) z1) = .next t := ⟨by decide, _, rfl⟩

/-- The largest `TOT`, 262, and a state in each framer state. -/
theorem witness_CountersFitNineBits :
    ((filled fresh .data 262 0x15 [0x16, 0xff]).inv = true ∧
      (filled fresh .data 262 0x15 [0x16, 0xff]).st ≠ .hunt ∧
      (filled fresh .data 262 0x15 [0x16, 0xff]).cfg.overhead ≤ 256) ∧
    (inLen fresh).inv = true ∧ fresh.inv = true := by decide

theorem witness_ConfigurationIsStatic : ∃ t, exec .sof z1 = .next t := ⟨_, rfl⟩

theorem witness_StatusBitsAreMonotonic : Instr.eof 0x00 ≠ .reset ∧ (∃ t, exec (.eof 0x00) z1 = .next t) ∧
    z1.lenErr = true ∧ z1.measWritten = true := ⟨by decide, ⟨_, rfl⟩, rfl, rfl⟩

/-- A step that measures, and one that does not. -/
theorem witness_MeasChangesOnlyWithMeasEvent :
    (∀ p, (presenting (byteInput 0x58) atLast).input.head? = some p → p.rst = false) ∧
    (∃ t, step (presenting (byteInput 0x58) atLast) = .next t ∧ t.event = .meas corMeas) ∧
    (∀ p, (presenting (byteInput 0xb4) atLast).input.head? = some p → p.rst = false) ∧
    (∃ t, step (presenting (byteInput 0xb4) atLast) = .next t ∧ ∀ r, t.event ≠ .meas r) :=
  ⟨fun p h => by cases h; rfl, ⟨_, rfl, by decide⟩, fun p h => by cases h; rfl,
    _, rfl, fun r h => by cases h⟩

/-- A step that reports a length, and one that does not. -/
theorem witness_LenErrChangesOnlyWithLenErrEvent :
    (∀ p, (presenting (byteInput 0xea) atLast7).input.head? = some p → p.rst = false) ∧
    (∃ t, step (presenting (byteInput 0xea) atLast7) = .next t ∧ t.event = .lenErr 7) ∧
    (∀ p, (presenting (byteInput 0xb4) atLast).input.head? = some p → p.rst = false) ∧
    (∃ t, step (presenting (byteInput 0xb4) atLast) = .next t ∧ ∀ n, t.event ≠ .lenErr n) :=
  ⟨fun p h => by cases h; rfl, ⟨_, rfl, by decide⟩, fun p h => by cases h; rfl,
    _, rfl, fun n h => by cases h⟩

theorem witness_FramerIsIdleAfterEveryEvent :
    ∃ t, step (presenting (byteInput 0xb4) atLast) = .next t ∧ t.event ≠ .none := ⟨_, rfl, by decide⟩

/-- Every operand-bearing check of well-formedness met. -/
theorem witness_DecodeEncodeRoundTrip : (Instr.dec cor).wf Config.decided = true ∧
    (Instr.lenchk a1).wf Config.decided = true ∧ (Instr.skip 0x11).wf Config.decided = true ∧
    (Instr.encCal 70000).wf Config.decided = true := by decide

theorem witness_AcceptedOutboundFramesAreEncoded :
    decode Config.decided .tx [0x11, 0x03, 0x03, 0x11, 0x70, 0x68] = .ok (.encCal 4464) ∧
    decode Config.decided .tx [] = .ok .encReserved := by decide

/-- R205: FV17's idea, a frame of seven bytes cut in two. -/
theorem witness_ChunkBoundariesMeanNothing :
    ∃ t es u fs, run fresh [0x16, 0x00, 0x00] = .next (t, es) ∧ run t [0x00, 0x00, 0x00, 0xea] = .next (u, fs) :=
  ⟨_, _, _, _, rfl, rfl⟩

theorem witness_RunConsumesEveryByte : z1.inv = true ∧ fresh.inv = true := by decide

/-- P1 and A1, in both profiles. -/
theorem witness_GoodFrameIsAccepted :
    (fresh.inv = true ∧ fresh.st = .hunt ∧ cor.head? = some 0x16 ∧
      cor[1]? = some (BitVec.ofNat 8 (fresh.cfg.frameLenDec - fresh.cfg.overhead)) ∧
      cor.length = fresh.cfg.frameLenDec ∧ total cor % 256 = 0) ∧
    (freshAlt.inv = true ∧ freshAlt.st = .hunt ∧ a1.head? = some 0x16 ∧
      a1[1]? = some (BitVec.ofNat 8 (freshAlt.cfg.frameLenDec - freshAlt.cfg.overhead)) ∧
      a1.length = freshAlt.cfg.frameLenDec ∧ total a1 % 256 = 0) := by decide

/-- S1a's field values give `COR` in the decided profile and A1's frame in the alternative. -/
theorem witness_MeasurementRoundTrip :
    (Config.decided.wf = true ∧ [(0x01 : Byte)].length = Config.decided.payloadOffset - 2 ∧
      fix17 = [0x16, BitVec.ofNat 8 (Config.decided.frameLenDec - Config.decided.overhead)] ++ [0x01] ++
        [hi8 410, lo8 410, hi8 103, lo8 103, hi8 490, lo8 490, hi8 772, lo8 772, hi8 54, lo8 54, hi8 60, lo8 60,
          hi8 32, lo8 32] ∧ cor = fix17 ++ [compute fix17]) ∧
    (Config.alternative.wf = true ∧ ([] : List Byte).length = Config.alternative.payloadOffset - 2 ∧
      a1 = a1.take 16 ++ [compute (a1.take 16)] ∧
      a1.take 16 = [0x16, BitVec.ofNat 8 (Config.alternative.frameLenDec - Config.alternative.overhead)] ++
        [hi8 410, lo8 410, hi8 103, lo8 103, hi8 490, lo8 490, hi8 772, lo8 772, hi8 54, lo8 54, hi8 60, lo8 60,
          hi8 32, lo8 32]) := by decide

/-- A byte that is no delimiter, a frame that just fits, and one that is a byte short. -/
theorem witness_SplitterEquations : Config.decided.wf = true ∧ (0x15 : Byte) ≠ 0x16 ∧
    (0x00 : Byte).toNat + Config.decided.overhead ≤ ([0x16, 0x00, 0, 0, 0, 0, 0] : List Byte).length ∧
    ([0x16, 0x00, 0, 0, 0, 0] : List Byte).length < (0x00 : Byte).toNat + Config.decided.overhead := by decide

theorem witness_MachineRefinesTheSplitter : fresh.inv = true ∧ fresh.st = .hunt ∧
    ∃ t es, run fresh [0x00, 0x16, 0x00, 0x16] = .next (t, es) := ⟨by decide, rfl, _, _, rfl⟩

/-- P1's frame after a byte of noise: a run that reports a measurement. -/
theorem witness_MeasOnlyForGoodFrames : fresh.inv = true ∧ fresh.st = .hunt ∧
    ∃ t es, run fresh (0x00 :: cor) = .next (t, es) ∧ Event.meas corMeas ∈ es :=
  ⟨by decide, rfl, _, _, rfl, by decide⟩

theorem witness_FramesAreDisjointSegments : Config.decided.wf = true ∧
    [0x16, 0x00, 0xaa, 0xbb, 0xcc, 0xdd, 0xee] ∈
      split Config.decided [0x00, 0x16, 0x00, 0xaa, 0xbb, 0xcc, 0xdd, 0xee, 0x16] := by decide

theorem witness_SplitContinuesFromTheRest : Config.decided.wf = true ∧ Config.alternative.wf = true := by decide

/-- EV10: an outbound frame fed to a hunting block. -/
theorem witness_BytesWithoutDelimiterAreSkipped : fresh.st = .hunt ∧
    (∀ b ∈ ([0x11, 0x03, 0x03, 0x11, 0x70, 0x68] : List Byte), b ≠ 0x16) := by decide

end Sys2Proof.Tests
end

/-! PROOFS. Big-endian assembly (00_scope.md R11), and the independence of the encoder and the receive side in a clock
period (00_scope.md R8). -/

namespace Sys2Proof.Machine

/-! ### Big-endian assembly -/

theorem be16_eq_zero_iff (h l : Byte) : be16 h l = 0 ↔ h = 0 ∧ l = 0 := by
  simp only [← BitVec.toNat_inj, be16_toNat, BitVec.ofNat_eq_ofNat, BitVec.toNat_ofNat, Nat.zero_mod]
  omega

theorem hi8_be16 (h l : Byte) : hi8 (be16 h l).toNat = h := by
  apply BitVec.eq_of_toNat_eq
  rw [hi8_toNat, be16_toNat]
  omega

theorem lo8_be16 (h l : Byte) : lo8 (be16 h l).toNat = l := by
  apply BitVec.eq_of_toNat_eq
  rw [lo8_toNat, be16_toNat]
  omega

theorem be16_hi8_lo8_toNat (v : Nat) : (be16 (hi8 v) (lo8 v)).toNat = v % 65536 := by
  rw [be16_toNat, hi8_toNat, lo8_toNat]
  omega

/-- Settles O22: the values of `be16`, `hi8` and `lo8` as natural numbers, and division with remainder by 256. -/
theorem bigEndianAssembly : Obligations.BigEndianAssembly :=
  ⟨be16_toNat, be16_eq_zero_iff, fun h l => ⟨hi8_be16 h l, lo8_be16 h l⟩, be16_hi8_lo8_toNat⟩

/-! ### The receive side neither reads nor writes the encoder's output -/

/-- An answer with the encoder's output replaced in its next state. -/
def withTx (f : List Byte) (r : Result) : Result := andThen r fun t => .next (setTx f t)

@[simp] theorem withTx_next (f : List Byte) (t : State) : withTx f (.next t) = .next (setTx f t) := rfl

/-- A meaning that neither reads nor writes the encoder's output: replacing the output first changes the answer only by
replacing the output in it. -/
def IgnoresTx (k : State → Result) : Prop := ∀ (f : List Byte) (s : State), k (setTx f s) = withTx f (k s)

/-- What ignores the encoder's output leaves it as it was. -/
theorem IgnoresTx.tx_eq {k : State → Result} (hk : IgnoresTx k) {s t : State} (h : k s = .next t) : t.tx = s.tx := by
  have e : k s = withTx s.tx (k s) := hk s.tx s
  rw [h, withTx_next] at e
  injection e with e
  simpa using congrArg State.tx e

/-- Meanings in sequence ignore the encoder's output where each does. -/
theorem IgnoresTx.andThen {r k : State → Result} (hr : IgnoresTx r) (hk : IgnoresTx k) :
    IgnoresTx fun s => andThen (r s) k := by
  intro f s
  simp only [hr f s]
  cases r s with
  | next t => exact hk f t
  | fault _ => rfl
  | refused _ => rfl

/-- A choice whose condition does not look at the encoder's output ignores it where both branches do. -/
theorem IgnoresTx.ite {c : State → Prop} [∀ s, Decidable (c s)] {k l : State → Result}
    (hc : ∀ f s, c (setTx f s) ↔ c s) (hk : IgnoresTx k) (hl : IgnoresTx l) :
    IgnoresTx fun s => if c s then k s else l s := by
  intro f s
  by_cases h : c s
  · simp only [hc, h, if_true, hk f s]
  · simp only [hc, h, if_false, hl f s]

theorem ignoresTx_quiet : IgnoresTx quiet := fun _ _ => rfl

theorem ignoresTx_storeByte (a : Nat) (b : Byte) : IgnoresTx (storeByte a b) :=
  .ite (fun _ _ => .rfl) (fun _ _ => rfl) fun _ _ => rfl

theorem ignoresTx_decodeInto (frame : List Byte) : IgnoresTx (decodeInto frame) := by
  intro f s
  simp only [decodeInto, setTx_cfg]
  cases decodePayload (payloadOf s.cfg frame) <;> rfl

theorem ignoresTx_pipeline (frame : List Byte) : IgnoresTx (pipeline frame) :=
  .ite (fun _ _ => .rfl) (fun _ _ => rfl) <|
    .ite (fun _ _ => .rfl) (fun _ _ => rfl) (ignoresTx_decodeInto frame)

/-! One lemma per operation of the receive side. -/

theorem ignoresTx_skip (b : Byte) : IgnoresTx (exec (.skip b)) := ignoresTx_quiet

theorem ignoresTx_sof : IgnoresTx (exec .sof) := (ignoresTx_storeByte 0 delimRx).andThen fun _ _ => rfl

theorem ignoresTx_len (l : Byte) : IgnoresTx (exec (.len l)) := (ignoresTx_storeByte 1 l).andThen fun _ _ => rfl

theorem ignoresTx_acc (b : Byte) : IgnoresTx (exec (.acc b)) := fun f s =>
  (ignoresTx_storeByte s.cnt b).andThen (fun _ _ => rfl) f s

theorem ignoresTx_eof (c : Byte) : IgnoresTx (exec (.eof c)) := by
  intro f s
  change execEof c (setTx f s) = withTx f (execEof c s)
  have hb : frameBytes (setTx f s) = frameBytes s := rfl
  simp only [execEof, hb]
  cases frameBytes s with
  | none => rfl
  | some bytes => exact ignoresTx_pipeline (bytes ++ [c]) f (toIdle s)

theorem ignoresTx_reset : IgnoresTx (exec .reset) := fun _ _ => rfl

theorem ignoresTx_selectByte (st : FramerState) (last : Bool) (b : Byte) : IgnoresTx (exec (selectByte st last b)) := by
  cases st with
  | hunt =>
    simp only [selectByte]
    split
    · exact ignoresTx_sof
    · exact ignoresTx_skip b
  | len => exact ignoresTx_len b
  | data =>
    cases last with
    | true => exact ignoresTx_eof b
    | false => exact ignoresTx_acc b

/-- Whatever stands on the receive ports, the receive side's part of a clock period ignores the encoder's output. -/
theorem ignoresTx_runReceive_selectRx (st : FramerState) (last : Bool) (p : Input) :
    IgnoresTx (runReceive (selectRx st last p)) := by
  unfold selectRx
  split
  · exact ignoresTx_reset
  · split
    · exact ignoresTx_selectByte st last p.rxData
    · exact ignoresTx_quiet

/-- R8: a request changes nothing in its clock period but the encoder's output. -/
theorem step_eq_withTx_step_without_request {s : State} {p : Input} {more : List Input} (h : s.input = p :: more)
    (hq : validRequest p.req = true) :
    step s = withTx (encoderOut s.cfg p.req) (step { s with input := { p with req := none } :: more }) := by
  have hnone : step { s with input := { p with req := none } :: more } =
      runReceive (selectRx s.st (lastByte s) p) (setTx [] (setInput more s)) :=
    step_cons (p := { p with req := none }) rfl rfl
  rw [step_cons h hq, hnone]
  exact ignoresTx_runReceive_selectRx s.st (lastByte s) p (encoderOut s.cfg p.req) (setTx [] (setInput more s))

/-- Settles O30: a step is the receive side's part beside the encoder's output, which that part ignores. -/
theorem encoderAndReceiverAreIndependent : Obligations.EncoderAndReceiverAreIndependent := by
  refine ⟨fun s p more h hq => step_cons h hq, fun s u p more h hq hu => ?_, fun s t b h => ?_⟩
  · rw [step_eq_withTx_step_without_request h hq, hu]
    rfl
  · exact (ignoresTx_selectByte s.st (lastByte s) b).tx_eq h

end Sys2Proof.Machine

/-! PROOFS. What the receive side's part of a clock period can do, said once, and the invariants that follow from it
(10_state.md R22 to R34, 40_framer.md R111). -/

namespace Sys2Proof.Machine

/-! ### What the receive side can do -/

/-- What the receive side's part of a clock period can do to a state, RESET apart: one case for each operation a byte
selects (30_encoding.md R80), SKIP and the absence of a byte being one case. -/
inductive ReceiveEffect (s : State) : State → Prop
  /-- No byte, or a byte that SKIP discards (R101, R203). -/
  | quiet : ReceiveEffect s (setEvent .none s)
  /-- SOF (R102). -/
  | sof (hst : s.st = .hunt) :
      ReceiveEffect s (setEvent .none (setFramer .len 1 0 delimRx (setBuf (memWrite s.buf 0 delimRx) s)))
  /-- LEN (R103). -/
  | len (l : Byte) (hst : s.st = .len) :
      ReceiveEffect s (setEvent .none
        (setFramer .data 2 (frameTotal s.cfg l) (addByte s.sum l) (setBuf (memWrite s.buf 1 l) s)))
  /-- ACC (R104). -/
  | acc (b : Byte) (hst : s.st = .data) (hlast : s.cnt + 1 ≠ s.tot) (hcnt : s.cnt < s.cfg.maxFrame) :
      ReceiveEffect s (setEvent .none
        (setFramer s.st (s.cnt + 1) s.tot (addByte s.sum b) (setBuf (memWrite s.buf s.cnt b) s)))
  /-- EOF: the pipeline runs on the candidate frame from the idle framer (R105). -/
  | eof (bytes : List Byte) (c : Byte) {t : State} (hst : s.st = .data) (hlast : s.cnt + 1 = s.tot)
      (hbytes : frameBytes s = some bytes) (hpipe : pipeline (bytes ++ [c]) (toIdle s) = .next t) :
      ReceiveEffect s t

theorem execSof_next {s t : State} (h : execSof s = .next t) :
    t = setEvent .none (setFramer .len 1 0 delimRx (setBuf (memWrite s.buf 0 delimRx) s)) := by
  obtain ⟨u, hu, h⟩ := andThen_next.1 h
  obtain ⟨-, rfl⟩ := storeByte_next.1 hu
  exact quiet_next.1 h

theorem execLen_next {l : Byte} {s t : State} (h : execLen l s = .next t) :
    t = setEvent .none
      (setFramer .data 2 (frameTotal s.cfg l) (addByte s.sum l) (setBuf (memWrite s.buf 1 l) s)) := by
  obtain ⟨u, hu, h⟩ := andThen_next.1 h
  obtain ⟨-, rfl⟩ := storeByte_next.1 hu
  exact quiet_next.1 h

theorem execAcc_next {b : Byte} {s t : State} (h : execAcc b s = .next t) :
    s.cnt < s.cfg.maxFrame ∧ t = setEvent .none
      (setFramer s.st (s.cnt + 1) s.tot (addByte s.sum b) (setBuf (memWrite s.buf s.cnt b) s)) := by
  obtain ⟨u, hu, h⟩ := andThen_next.1 h
  obtain ⟨hcnt, rfl⟩ := storeByte_next.1 hu
  exact ⟨hcnt, quiet_next.1 h⟩

/-- A received byte has one of the effects. -/
theorem receiveEffect_of_rxStep {s t : State} {b : Byte} (h : rxStep s b = .next t) : ReceiveEffect s t := by
  unfold rxStep at h
  cases hst : s.st with
  | hunt =>
    simp only [hst, selectByte] at h
    split at h
    · cases execSof_next h
      exact .sof hst
    · cases quiet_next.1 h
      exact .quiet
  | len =>
    rw [hst] at h
    cases execLen_next h
    exact .len b hst
  | data =>
    rw [hst] at h
    by_cases hlast : s.cnt + 1 = s.tot
    · have hb : lastByte s = true := by simpa [lastByte] using hlast
      rw [hb] at h
      obtain ⟨bytes, hbytes, hpipe⟩ := execEof_next h
      exact .eof bytes b hst hlast hbytes hpipe
    · have hb : lastByte s = false := by simpa [lastByte] using hlast
      rw [hb] at h
      obtain ⟨hcnt, rfl⟩ := execAcc_next h
      exact .acc b hst hlast hcnt

/-- What a step can do: RESET, or one of the receive side's effects, on the state with the clock period consumed and the
encoder's output of that period standing. -/
theorem step_effect {s t : State} (h : step s = .next t) : ∃ frame rest,
    ((∃ p, s.input.head? = some p ∧ p.rst = true) ∧ exec .reset (setTx frame (setInput rest s)) = .next t) ∨
    ReceiveEffect (setTx frame (setInput rest s)) t := by
  rcases step_cases h with ⟨-, rfl⟩ | ⟨p, rest, hp, -, h⟩
  · exact ⟨[], s.input, .inr .quiet⟩
  · refine ⟨encoderOut s.cfg p.req, rest, ?_⟩
    cases hr : p.rst with
    | true => exact .inl ⟨⟨p, by rw [hp]; rfl, hr⟩, by simpa [selectRx, hr] using h⟩
    | false =>
      right
      cases hv : p.rxValid with
      | true =>
        simp only [selectRx, hr, hv] at h
        exact receiveEffect_of_rxStep (b := p.rxData) h
      | false =>
        simp only [selectRx, hr, hv] at h
        cases h
        exact .quiet

/-! ### What RESET and the pipeline leave of the framer -/

/-- RESET leaves the framer idle and the configuration as it was (70_reset_and_hazards.md R250, R251). -/
theorem reset_idle {s t : State} (h : exec .reset s = .next t) : idle t = true ∧ t.cfg = s.cfg := by
  cases h
  exact ⟨rfl, rfl⟩

/-- The pipeline writes neither the framer registers nor the configuration (60_exceptions.md R226). -/
theorem pipeline_idle_eq {frame : List Byte} {s t : State} (h : pipeline frame s = .next t) :
    idle t = idle s ∧ t.cfg = s.cfg := by
  rcases pipeline_cases frame s with ⟨-, e⟩ | ⟨-, -, e⟩ | ⟨-, -, r, -, e⟩ <;>
    (rw [e] at h; cases h; exact ⟨rfl, rfl⟩)

/-- A completed frame leaves the framer idle, whatever its fate (40_framer.md R105). -/
theorem pipeline_toIdle_idle {frame : List Byte} {s t : State} (h : pipeline frame (toIdle s) = .next t) :
    idle t = true ∧ t.cfg = s.cfg := by
  obtain ⟨hi, hc⟩ := pipeline_idle_eq h
  exact ⟨hi, hc⟩

/-- An idle framer has nothing buffered. -/
theorem idle_buf {s : State} (h : idle s = true) : s.buf = [] := by
  simp only [idle, Bool.and_eq_true, beq_iff_eq] at h
  exact h.2

/-! ### The state invariant -/

/-- A state in `LEN` whose buffer lists the delimiter alone meets the invariant. -/
theorem inv_len_of {t : State} (hc : t.cfg.wf = true) (h1 : t.st = .len) (hcnt : t.cnt = 1) (ht : t.tot = 0)
    (hb : t.buf = listedFrom 0 [delimRx]) (hs : t.sum = delimRx) : t.inv = true := by
  simp [State.inv, framerInv, hc, h1, hcnt, ht, hs, bufBytes_of_listed hb, bufInv_of_listed hb hcnt]

/-- A running sum that is the sum of the bytes modulo 256 stays so (40_framer.md R103, R104). -/
theorem addByte_toNat {sum b : Byte} {bs : List Byte} (h : sum.toNat = total bs % 256) :
    (addByte sum b).toNat = total (bs ++ [b]) % 256 := by
  simp [addByte, BitVec.toNat_add, h]

theorem ReceiveEffect.keeps_inv {s t : State} (h : ReceiveEffect s t) (hi : s.inv = true) : t.inv = true := by
  have hc := inv_cfg hi
  cases h with
  | quiet => exact hi
  | sof hst =>
    obtain ⟨-, -, -, hb⟩ := inv_hunt hi hst
    exact inv_len_of hc rfl rfl rfl (by rw [setEvent_buf, setFramer_buf, setBuf_buf, hb]; rfl) rfl
  | len l hst =>
    obtain ⟨hcnt, -, hb, hs⟩ := inv_len hi hst
    have happ := append_byte (inv_buf hi) l
    rw [hcnt, hb] at happ
    have hover := (config_bounds hc).1
    have hlt : 2 < frameTotal s.cfg l := by unfold frameTotal; omega
    exact inv_data_of (more := []) hc rfl happ rfl rfl rfl hlt (addByte_toNat (bs := [delimRx]) (by rw [hs]; rfl))
  | acc b hst hlast _ =>
    obtain ⟨-, hlt, ⟨l, more, hb, ht⟩, hs⟩ := inv_data hi hst
    have hlen := (buf_eq_listed (inv_buf hi)).2
    exact inv_data_of (bs := bufBytes s ++ [b]) (more := more ++ [b]) hc hst (append_byte (inv_buf hi) b)
      (by rw [hb]; rfl) (by simp [hlen]) ht (show s.cnt + 1 < s.tot by omega) (addByte_toNat hs)
  | eof bytes c hst hlast hbytes hpipe =>
    obtain ⟨hidle, hcfg⟩ := pipeline_toIdle_idle hpipe
    exact inv_of_idle (hcfg ▸ hc) hidle

theorem reset_inv {s t : State} (hc : s.cfg.wf = true) (h : exec .reset s = .next t) : t.inv = true := by
  obtain ⟨hidle, hcfg⟩ := reset_idle h
  exact inv_of_idle (hcfg ▸ hc) hidle

/-- Settles O38: each effect of the receive side keeps the invariant, which looks neither at what waits on the input
ports nor at the encoder's output, and RESET leaves an idle framer. -/
theorem stepKeepsTheStateInvariant : Obligations.StepKeepsTheStateInvariant := by
  refine ⟨fun s t hi h => ?_, fun s t => reset_inv⟩
  obtain ⟨frame, rest, ⟨-, hreset⟩ | heffect⟩ := step_effect h
  · exact reset_inv (s := setTx frame (setInput rest s)) (inv_cfg hi) hreset
  · exact heffect.keeps_inv hi

/-- Settles O39: the framer is idle after reset, and both profiles are well formed. -/
theorem resetMeetsTheStateInvariant : Obligations.ResetMeetsTheStateInvariant :=
  ⟨inv_of_idle (by decide) rfl, inv_of_idle (by decide) rfl⟩

/-! ### The canonical form of the memory -/

theorem ReceiveEffect.keeps_memory_wf {s t : State} (h : ReceiveEffect s t) (hw : s.buf.wf = true) :
    t.buf.wf = true := by
  cases h with
  | quiet => exact hw
  | sof _ => exact memWrite_wf hw 0 delimRx
  | len l _ => exact memWrite_wf hw 1 l
  | acc b _ _ _ => exact memWrite_wf hw s.cnt b
  | eof bytes c _ _ _ hpipe => rw [idle_buf (pipeline_toIdle_idle hpipe).1, empty_memory_wf]

/-- Settles O40: each effect writes one byte or empties the buffer, and RESET empties it. -/
theorem stepKeepsMemoryCanonical : Obligations.StepKeepsMemoryCanonical := by
  intro s t hw h
  obtain ⟨frame, rest, ⟨-, hreset⟩ | heffect⟩ := step_effect h
  · rw [idle_buf (reset_idle hreset).1, empty_memory_wf]
  · exact heffect.keeps_memory_wf hw

/-! ### The accesses that cannot happen -/

/-- Reading a list of indices fails where one of them cannot be read. -/
theorem mapM_eq_none_of_mem {α β : Type} {f : α → Option β} {l : List α} {a : α} (ha : a ∈ l)
    (hf : f a = none) : l.mapM f = none := by
  induction l with
  | nil => cases ha
  | cons x l ih =>
    rw [List.mapM_cons]
    rcases List.mem_cons.1 ha with rfl | ha
    · rw [hf]; rfl
    · cases f x with
      | none => rfl
      | some y => rw [ih ha]; rfl

theorem frameBytes_eq_none {s : State} {a : Nat} (ha : a < s.cnt) (hr : memRead s.buf a = none) :
    frameBytes s = none :=
  mapM_eq_none_of_mem (List.mem_range.2 ha) hr

/-- Only a payload of 14 bytes has a record (42_decoder.md R150). -/
theorem decodePayload_eq_none {p : List Byte} (h : p.length ≠ payloadLen) : decodePayload p = none := by
  unfold decodePayload
  split
  · exact absurd rfl h
  · rfl

/-- A frame that has not the accepted length has not a payload of 14 bytes (42_decoder.md R151). -/
theorem payloadOf_length_ne {c : Config} {frame : List Byte} (h : frame.length ≠ c.frameLenDec) :
    (payloadOf c frame).length ≠ payloadLen := by
  rw [payloadOf_length]
  simp only [Config.frameLenDec, payloadLen] at h ⊢
  omega

/-- Settles O10: the store is outside `BUF`, the frame has an unwritten byte, the payload has no record. -/
theorem impossibleAccessesFault : Obligations.ImpossibleAccessesFault := by
  refine ⟨fun s b h => ?_, fun s c a ha hr => ?_, fun s frame h => ?_⟩
  · change execAcc b s = _
    simp [execAcc, storeByte, Nat.not_lt.2 h, andThen]
  · change execEof c s = _
    simp [execEof, frameBytes_eq_none ha hr]
  · change decodeInto frame s = _
    simp [decodeInto, decodePayload_eq_none (payloadOf_length_ne h)]

/-! ### The bounds of the counters -/

/-- No length byte gives a frame that `BUF` cannot hold (10_state.md R23, R24). -/
theorem frameTotal_le_maxFrame (c : Config) (l : Byte) : frameTotal c l ≤ c.maxFrame := by
  have := l.isLt
  unfold frameTotal Config.maxFrame
  omega

/-- Under the invariant a byte that is received in a frame has a place in `BUF` (40_framer.md R111). -/
theorem inv_cnt_lt_maxFrame {s : State} (hi : s.inv = true) : s.cnt < s.cfg.maxFrame := by
  have hmax := maxFrame_ge s.cfg
  cases hst : s.st with
  | hunt => have := (inv_hunt hi hst).1; omega
  | len => have := (inv_len hi hst).1; omega
  | data =>
    obtain ⟨-, hlt, ⟨l, more, -, ht⟩, -⟩ := inv_data hi hst
    exact lt_of_lt_of_le hlt (ht ▸ frameTotal_le_maxFrame s.cfg l)

theorem inv_tot_le_maxFrame {s : State} (hi : s.inv = true) : s.tot ≤ s.cfg.maxFrame := by
  cases hst : s.st with
  | hunt => have := (inv_hunt hi hst).2.1; omega
  | len => have := (inv_len hi hst).2.1; omega
  | data =>
    obtain ⟨-, -, ⟨l, more, -, ht⟩, -⟩ := inv_data hi hst
    exact ht ▸ frameTotal_le_maxFrame s.cfg l

/-- Settles O41: `MAXFRAME` bounds both counters, and for `OVERHEAD` at most 256 it is below 512. -/
theorem countersFitNineBits : Obligations.CountersFitNineBits := by
  intro s hi
  have hcnt := inv_cnt_lt_maxFrame hi
  have htot := inv_tot_le_maxFrame hi
  refine ⟨fun _ => hcnt, hcnt.le, htot, fun hover => ?_⟩
  have hmax : s.cfg.maxFrame < 2 ^ 9 := by unfold Config.maxFrame; omega
  exact ⟨by rw [cntReg, BitVec.toNat_ofNat, Nat.mod_eq_of_lt (hcnt.trans hmax)],
    by rw [totReg, BitVec.toNat_ofNat, Nat.mod_eq_of_lt (htot.trans_lt hmax)]⟩

/-! ### The measurement -/

/-- A state `t` reached from `s` with `MEAS` and `MEAS_WRITTEN` as they were, unless the event is `MEAS(r)` and `r` is
readable in `MEAS` (10_state.md R30, R31). -/
def MeasFollowsEvent (s t : State) : Prop :=
  ((∀ r, t.event ≠ .meas r) → t.meas = s.meas ∧ t.measWritten = s.measWritten) ∧
  (∀ r, t.event = .meas r → t.meas = r ∧ measurement t = some r)

/-- A state with the record as it was and no event `MEAS`. -/
theorem measFollowsEvent_of_unchanged {s t : State} (hm : t.meas = s.meas) (hw : t.measWritten = s.measWritten)
    (he : ∀ r, t.event ≠ .meas r) : MeasFollowsEvent s t :=
  ⟨fun _ => ⟨hm, hw⟩, fun r h => absurd h (he r)⟩

theorem measFollowsEvent_of_measured {s t : State} {r : Meas} (hm : t.meas = r) (hw : t.measWritten = true)
    (he : t.event = .meas r) : MeasFollowsEvent s t := by
  refine ⟨fun h => absurd he (h r), fun r' h => ?_⟩
  obtain rfl : r = r' := by simpa [he] using h
  exact ⟨hm, by simp [measurement, hw, hm]⟩

theorem pipeline_measFollowsEvent {frame : List Byte} {s t : State} (h : pipeline frame s = .next t) :
    MeasFollowsEvent s t := by
  rcases pipeline_cases frame s with ⟨-, e⟩ | ⟨-, -, e⟩ | ⟨-, -, r, -, e⟩ <;> rw [e] at h <;> cases h
  · exact measFollowsEvent_of_unchanged rfl rfl (by simp)
  · exact measFollowsEvent_of_unchanged rfl rfl (by simp)
  · exact measFollowsEvent_of_measured rfl rfl rfl

theorem ReceiveEffect.measFollowsEvent {s t : State} (h : ReceiveEffect s t) : MeasFollowsEvent s t := by
  cases h with
  | eof bytes c _ _ _ hpipe => exact pipeline_measFollowsEvent (s := toIdle s) hpipe
  | _ => exact measFollowsEvent_of_unchanged rfl rfl (by simp)

/-- Settles O44: without a RESET the step is one of the receive side's effects, and of these EOF's pipeline alone writes
the record, with the event. -/
theorem measChangesOnlyWithMeasEvent : Obligations.MeasChangesOnlyWithMeasEvent := by
  intro s t hrst h
  obtain ⟨frame, rest, ⟨⟨p, hp, hr⟩, -⟩ | heffect⟩ := step_effect h
  · exact absurd hr (by simp [hrst p hp])
  · exact heffect.measFollowsEvent

/-! ### The state after reset -/

/-- Settles O32: the values `State.reset` writes, and the ports read off them. -/
theorem resetStateValues : Obligations.ResetStateValues :=
  ⟨rfl, rfl, rfl, rfl, rfl, rfl, rfl, rfl, rfl, rfl, rfl⟩

end Sys2Proof.Machine

/-! PROOFS. No operation writes the static parameters or the input ports (20_memory.md R63, 70_reset_and_hazards.md
R251). -/

namespace Sys2Proof.Machine

theorem decodeInto_keeps_cfg_input {frame : List Byte} {s t : State} (h : decodeInto frame s = .next t) :
    t.cfg = s.cfg ∧ t.input = s.input := by
  obtain ⟨r, -, rfl⟩ := decodeInto_next.1 h
  exact ⟨rfl, rfl⟩

/-- Whatever becomes of the frame, the pipeline writes neither field (44_pipeline.md R201). -/
theorem pipeline_keeps_cfg_input {frame : List Byte} {s t : State} (h : pipeline frame s = .next t) :
    t.cfg = s.cfg ∧ t.input = s.input := by
  rcases pipeline_cases frame s with ⟨-, e⟩ | ⟨-, -, e⟩ | ⟨-, -, r, -, e⟩ <;>
    (rw [e] at h; cases h; exact ⟨rfl, rfl⟩)

theorem execLenchk_keeps_cfg_input {frame : List Byte} {s t : State} (h : execLenchk frame s = .next t) :
    t.cfg = s.cfg ∧ t.input = s.input := by
  unfold execLenchk at h
  split at h <;> (cases h; exact ⟨rfl, rfl⟩)

/-- Settles O42: by the operation. A store, the pipeline, LENCHK and DEC keep both fields by what they can do, the
reserved selector answers no next state, and every other operation is a fixed update of other fields. -/
theorem configurationIsStatic : Obligations.ConfigurationIsStatic := by
  intro i s t h
  cases i with
  | sof => cases execSof_next h; exact ⟨rfl, rfl⟩
  | len l => cases execLen_next h; exact ⟨rfl, rfl⟩
  | acc b =>
    obtain ⟨-, rfl⟩ := execAcc_next h
    exact ⟨rfl, rfl⟩
  | eof c =>
    obtain ⟨bytes, -, hpipe⟩ := execEof_next h
    exact pipeline_keeps_cfg_input (s := toIdle s) hpipe
  | lenchk frame => exact execLenchk_keeps_cfg_input h
  | dec frame => exact decodeInto_keeps_cfg_input h
  | encReserved => cases h
  | _ => cases h; exact ⟨rfl, rfl⟩

end Sys2Proof.Machine

/-! PROOFS. The encodings of the operations and what selects them (30_encoding.md R70 to R84). -/

namespace Sys2Proof.Machine

/-! ### The trailer of a frame -/

/-- The trailer with which a sequence verifies is COMPUTE of the bytes before it, and no other (41_checksum.md R132). -/
theorem verify_snoc_iff (bs : List Byte) (c : Byte) : verify (bs ++ [c]) = true ↔ c = compute bs := by
  have hc := c.isLt
  rw [verify_snoc, beq_iff_eq, total_append, total_cons, total_nil, ← BitVec.toNat_inj, compute_toNat]
  omega

theorem verify_txFrame (body : List Byte) : verify (txFrame body) = true :=
  (verify_snoc_iff _ _).2 rfl

/-! ### Outbound frames -/

/-- The bodies of the requests and the operation each one is (30_encoding.md R73 to R75). -/
inductive RequestBody : List Byte → Instr → Prop
  | start : RequestBody bodyStart .encStart
  | cal (a b : Byte) : RequestBody [0x03, a, b] (.encCal (be16 a b).toNat)
  | dustOn : RequestBody (bodyDust true) .encDustOn
  | dustOff : RequestBody (bodyDust false) .encDustOff

/-- The body ENC.CAL sends carries its operand modulo 65536 (43_encoder.md R183). -/
theorem requestBody_bodyCal (current : Nat) : RequestBody (bodyCal current) (.encCal (current % 65536)) := by
  have h := RequestBody.cal (hi8 (current % 65536)) (lo8 (current % 65536))
  rwa [be16_hi8_lo8_toNat, Nat.mod_mod] at h

theorem bodyCal_be16 (a b : Byte) : bodyCal (be16 a b).toNat = [0x03, a, b] := by
  have h : (be16 a b).toNat % 65536 = (be16 a b).toNat := Nat.mod_eq_of_lt (be16 a b).isLt
  simp only [bodyCal, h, hi8_be16, lo8_be16]

theorem RequestBody.encode_eq {body : List Byte} {i : Instr} (h : RequestBody body i) :
    encode i = (.tx, txFrame body) := by
  cases h with
  | cal a b => rw [← bodyCal_be16 a b]; rfl
  | _ => rfl

/-- The constant frames are read by evaluation; of ENC.CAL's, whose operand is open, the trailer is right by
construction. -/
theorem RequestBody.decodeTx_eq {body : List Byte} {i : Instr} (h : RequestBody body i) :
    decodeTx (txFrame body) = .ok i := by
  cases h with
  | cal a b => simpa [decodeTx, txFrame] using verify_txFrame [0x03, a, b]
  | _ => rfl

/-- What the outbound decoder accepts: the empty sequence, or the frame of a request's body. -/
theorem decodeTx_ok {bytes : List Byte} {i : Instr} (h : decodeTx bytes = .ok i) :
    (bytes = [] ∧ i = .encReserved) ∨ ∃ body, RequestBody body i ∧ bytes = txFrame body := by
  unfold decodeTx at h
  split at h
  · cases h; exact .inl ⟨rfl, rfl⟩
  next head rest =>
  split at h
  · cases h
  next hhead =>
  obtain rfl : head = headTx := not_not.1 hhead
  split at h
  · cases h
  next hv =>
  replace hv : verify (headTx :: rest) = true := by simpa using hv
  right
  split at h
  · next n op a c =>
    obtain rfl := (verify_snoc_iff [headTx, n, op, a] c).1 hv
    split at h <;> cases h
    next hb => cases hb; exact ⟨_, .start, rfl⟩
  · next n op a b c =>
    obtain rfl := (verify_snoc_iff [headTx, n, op, a, b] c).1 hv
    split at h
    · next hb => cases hb; cases h; exact ⟨_, .cal a b, rfl⟩
    · split at h
      · next hb => cases hb; cases h; exact ⟨_, .dustOn, rfl⟩
      · split at h <;> cases h
        next hb => cases hb; exact ⟨_, .dustOff, rfl⟩
  · cases h

/-! ### The selection maps -/

theorem decode_rx_byte (c : Config) (st : FramerState) (last : Bool) (b : Byte) :
    decode c (.rx st last) [b] = .ok (selectByte st last b) := rfl

theorem selectByte_skip {b : Byte} (h : b ≠ delimRx) (last : Bool) : selectByte .hunt last b = .skip b :=
  if_neg h

/-- What a received byte selects is well formed: SKIP is selected by no `0x16` (30_encoding.md R80). -/
theorem selectByte_wf (c : Config) (st : FramerState) (last : Bool) (b : Byte) :
    (selectByte st last b).wf c = true := by
  cases st with
  | hunt =>
    by_cases h : b = delimRx
    · rw [h]; rfl
    · rw [selectByte_skip h]; simpa [Instr.wf] using h
  | len => rfl
  | data => cases last <;> rfl

/-! ### The round trip -/

/-- LENCHK's operand conditions are what its decoder checks (42_decoder.md R151, 10_state.md R24). -/
theorem decodeUnit_lenchk {c : Config} {frame : List Byte} (h : (Instr.lenchk frame).wf c = true) :
    decodeUnit c frame .lenchk = .ok (.lenchk frame) := by
  simp only [Instr.wf, Bool.and_eq_true, decide_eq_true_eq] at h
  simp [decodeUnit, h]

/-- DEC's operand conditions are what its decoder checks (42_decoder.md R150). -/
theorem decodeUnit_dec {c : Config} {frame : List Byte} (h : (Instr.dec frame).wf c = true) :
    decodeUnit c frame .dec = .ok (.dec frame) := by
  simp only [Instr.wf, Bool.and_eq_true] at h
  simp [decodeUnit, h]

/-- Settles O48: by the operation. SKIP, LENCHK and DEC use their operand conditions, the requests the bodies of their
frames; every other operation's bytes are read without a condition. -/
theorem decodeEncodeRoundTrip : Obligations.DecodeEncodeRoundTrip := by
  intro c i hwf
  cases i with
  | skip b => exact congrArg Except.ok (selectByte_skip (by simpa [Instr.wf] using hwf) false)
  | lenchk frame => exact decodeUnit_lenchk hwf
  | dec frame => exact decodeUnit_dec hwf
  | encStart => exact RequestBody.start.decodeTx_eq
  | encCal current => exact (requestBody_bodyCal current).decodeTx_eq
  | encDustOn => exact RequestBody.dustOn.decodeTx_eq
  | encDustOff => exact RequestBody.dustOff.decodeTx_eq
  | _ => rfl

/-- Settles O49: the empty sequence is ENC.RESERVED's, and every other sequence the decoder accepts is the frame of the
body of what it reads. -/
theorem acceptedOutboundFramesAreEncoded : Obligations.AcceptedOutboundFramesAreEncoded := by
  intro c bytes i h
  obtain ⟨rfl, rfl⟩ | ⟨body, hbody, rfl⟩ := decodeTx_ok h
  · rfl
  · exact hbody.encode_eq

/-- Settles O50: the two bytes by the selection map, the outbound words as the frames of their bodies. -/
theorem specWordsDecode : Obligations.SpecWordsDecode :=
  ⟨rfl, rfl, RequestBody.start.decodeTx_eq, (RequestBody.cal 0x11 0x70).decodeTx_eq, RequestBody.dustOn.decodeTx_eq,
    RequestBody.dustOff.decodeTx_eq, rfl, congrArg Except.toOption RequestBody.start.decodeTx_eq⟩

/-! ### The step and the selected operations -/

/-- Settles O36: the fetch gives the two selections; for a byte, the receive side's is the one the decoder reads. -/
theorem stepRunsTheSelectedOperation : Obligations.StepRunsTheSelectedOperation := by
  refine ⟨fun s p more h => ?_, fun s b q more op hq h hop => ?_, fun s b q more hq h => step_cons h hq⟩
  · simp only [step, clockPeriod, fetch, h]
    rfl
  · rw [decode_rx_byte] at hop
    cases hop
    exact ⟨selectByte_wf _ _ _ _, step_cons h hq⟩

/-! ### Bytes without a delimiter -/

/-- A byte other than `0x16` leaves a hunting block as it was (40_framer.md R101). -/
theorem rxStep_skip {s : State} {b : Byte} (hst : s.st = .hunt) (hb : b ≠ delimRx) :
    rxStep s b = .next (setEvent .none s) := by
  rw [rxStep, hst, selectByte_skip hb]
  rfl

theorem run_without_delimiter {s : State} {bytes : List Byte} (hst : s.st = .hunt) (h : ∀ b ∈ bytes, b ≠ delimRx) :
    run s bytes = .next (setEvent (if bytes = [] then s.event else .none) s,
      List.replicate bytes.length Event.none) := by
  induction bytes generalizing s with
  | nil => rfl
  | cons b bs ih =>
    obtain ⟨hb, hbs⟩ := List.forall_mem_cons.1 h
    have hrest := ih (s := setEvent .none s) hst hbs
    rw [run_cons_next (rxStep_skip hst hb) hrest]
    simp [setEvent, List.replicate_succ]

/-- Settles O59: by induction on the bytes, each of which is skipped; the two constant frames are evaluated. -/
theorem bytesWithoutDelimiterAreSkipped : Obligations.BytesWithoutDelimiterAreSkipped :=
  ⟨fun _ _ hst h => run_without_delimiter hst h, by decide⟩

/-! ### Refusal -/

/-- A meaning that is never refused. -/
def NeverRefused (k : State → Result) : Prop := ∀ s r, k s ≠ .refused r

theorem NeverRefused.andThen {r k : State → Result} (hr : NeverRefused r) (hk : NeverRefused k) :
    NeverRefused fun s => andThen (r s) k := by
  intro s f h
  cases hs : r s with
  | next t => exact hk t f (by simpa [hs, Machine.andThen] using h)
  | fault g => simp [hs, Machine.andThen] at h
  | refused g => exact hr s g hs

theorem neverRefused_quiet (f : State → State) : NeverRefused fun s => quiet (f s) :=
  fun _ _ h => nomatch h

theorem neverRefused_storeByte (a : Nat) (b : Byte) : NeverRefused (storeByte a b) := by
  intro s r
  unfold storeByte
  split <;> simp

theorem neverRefused_decodeInto (frame : List Byte) : NeverRefused (decodeInto frame) := by
  intro s r
  unfold decodeInto
  split <;> simp

theorem neverRefused_pipeline (frame : List Byte) : NeverRefused (pipeline frame) := by
  intro s r
  rcases pipeline_cases frame s with ⟨-, e⟩ | ⟨-, -, e⟩ | ⟨-, -, m, -, e⟩ <;> simp [e]

theorem neverRefused_execEof (c : Byte) : NeverRefused (execEof c) := by
  intro s r
  unfold execEof
  split
  · exact neverRefused_pipeline _ _ _
  · simp

theorem neverRefused_execLenchk (frame : List Byte) : NeverRefused (execLenchk frame) := by
  intro s r
  unfold execLenchk
  split <;> simp [quiet]

/-- By the operation: a store, the pipeline, LENCHK and DEC answer a next state or a fault, and every other operation but
the reserved selector's a next state. -/
theorem neverRefused_exec {i : Instr} (h : i ≠ .encReserved) : NeverRefused (exec i) := by
  cases i with
  | sof => exact (neverRefused_storeByte 0 delimRx).andThen (neverRefused_quiet _)
  | len l => exact (neverRefused_storeByte 1 l).andThen (neverRefused_quiet _)
  | acc b => exact NeverRefused.andThen (fun s => neverRefused_storeByte s.cnt b s) (neverRefused_quiet _)
  | eof c => exact neverRefused_execEof c
  | lenchk frame => exact neverRefused_execLenchk frame
  | dec frame => exact neverRefused_decodeInto frame
  | encReserved => exact absurd rfl h
  | _ => exact fun _ _ h => nomatch h

/-- Settles O47: the reserved selector's meaning is its refusal, and no other operation is ever refused. -/
theorem onlyTheReservedSelectorIsRefused : Obligations.OnlyTheReservedSelectorIsRefused := by
  intro i s
  constructor
  · rintro ⟨r, hr⟩
    by_contra hi
    exact neverRefused_exec hi s r hr
  · rintro rfl
    exact ⟨_, rfl⟩

end Sys2Proof.Machine

/-! PROOFS. The framer's operations and the bytes that select them (40_framer.md R101 to R105), the splitter on byte
lists, and the register machine as a refinement of it (R106 to R112). -/

namespace Sys2Proof.Machine

/-! ### What a received byte selects -/

theorem rxStep_sof {s : State} (hst : s.st = .hunt) : rxStep s delimRx = exec .sof s := by
  rw [rxStep, hst]; rfl

theorem rxStep_len {s : State} (hst : s.st = .len) (l : Byte) : rxStep s l = exec (.len l) s := by
  rw [rxStep, hst]; rfl

/-- Every byte of a frame but the last selects ACC; above `TOT` the model's choice is ACC too (assumption log 17). -/
theorem rxStep_acc {s : State} (hst : s.st = .data) (h : s.cnt + 1 ≠ s.tot) (b : Byte) :
    rxStep s b = exec (.acc b) s := by
  rw [rxStep, hst, show lastByte s = false by simpa [lastByte] using h]; rfl

theorem rxStep_eof {s : State} (hst : s.st = .data) (h : s.cnt + 1 = s.tot) (c : Byte) :
    rxStep s c = exec (.eof c) s := by
  rw [rxStep, hst, show lastByte s = true by simpa [lastByte] using h]; rfl

/-! ### The five operations -/

/-- Settles O1: SKIP's meaning is the event `NONE`, and it is what the selection map gives. -/
theorem skipWritesNoRegister : Obligations.SkipWritesNoRegister :=
  ⟨fun _ _ => rfl, fun s b hst hb => by rw [rxStep, hst, selectByte_skip hb]⟩

theorem execSof_eq (s : State) :
    execSof s = .next (setEvent .none (setFramer .len 1 0 delimRx (setBuf (memWrite s.buf 0 delimRx) s))) := by
  have h : 0 < s.cfg.maxFrame := by have := maxFrame_ge s.cfg; omega
  rw [execSof, storeByte_eq h]; rfl

theorem execLen_eq (l : Byte) (s : State) :
    execLen l s = .next (setEvent .none
      (setFramer .data 2 (frameTotal s.cfg l) (addByte s.sum l) (setBuf (memWrite s.buf 1 l) s))) := by
  have h : 1 < s.cfg.maxFrame := by have := maxFrame_ge s.cfg; omega
  rw [execLen, storeByte_eq h]; rfl

theorem execAcc_eq {s : State} (b : Byte) (h : s.cnt < s.cfg.maxFrame) :
    execAcc b s = .next (setEvent .none
      (setFramer s.st (s.cnt + 1) s.tot (addByte s.sum b) (setBuf (memWrite s.buf s.cnt b) s))) := by
  rw [execAcc, storeByte_eq h]; rfl

/-- Settles O2: index 0 is inside `BUF`, and the store writes that index alone. -/
theorem sofOpensFrame : Obligations.SofOpensFrame :=
  ⟨fun s => ⟨memWrite s.buf 0 delimRx, execSof_eq s, memRead_memWrite_same _ _ _, memRead_memWrite_other _ _ _⟩,
    fun _ hst => rxStep_sof hst⟩

/-- Settles O3: index 1 is inside `BUF`, and the store writes that index alone. -/
theorem lenSetsFrameTotal : Obligations.LenSetsFrameTotal :=
  ⟨fun s l => ⟨memWrite s.buf 1 l, execLen_eq l s, memRead_memWrite_same _ _ _, memRead_memWrite_other _ _ _,
      fun h => by omega⟩,
    fun _ l hst => rxStep_len hst l⟩

/-- Where `BUF` lists exactly `CNT` bytes, EOF hands them and the trailer to the pipeline (40_framer.md R105). -/
theorem execEof_eq {s : State} (h : bufInv s = true) (c : Byte) :
    execEof c s = pipeline (bufBytes s ++ [c]) (toIdle s) := by
  rw [execEof, frameBytes_of_bufInv h]

/-- The pipeline always answers a next state with one of the three events of a completed frame, and touches none of the
model's own fields but the event (44_pipeline.md R201, R204). -/
theorem pipeline_answers (frame : List Byte) (s : State) : ∃ t, pipeline frame s = .next t ∧
    (t.event = .corrupt ∨ t.event = .lenErr frame.length ∨ ∃ r, t.event = .meas r) ∧
    t.input = s.input ∧ t.tx = s.tx ∧ t.unitOut = s.unitOut ∧ t.freeCtr = s.freeCtr := by
  rcases pipeline_cases frame s with ⟨-, e⟩ | ⟨-, -, e⟩ | ⟨-, -, r, -, e⟩
  · exact ⟨_, e, .inl rfl, rfl, rfl, rfl, rfl⟩
  · exact ⟨_, e, .inr (.inl rfl), rfl, rfl, rfl, rfl⟩
  · exact ⟨_, e, .inr (.inr ⟨r, rfl⟩), rfl, rfl, rfl, rfl⟩

/-- Settles O5: under the invariant the candidate frame has `TOT` bytes, and the pipeline answers from the idle framer. -/
theorem eofEmitsCandidateFrame : Obligations.EofEmitsCandidateFrame := by
  refine ⟨fun s c hi _ hlast => ?_, fun s c hst hlast => rxStep_eof hst hlast c⟩
  have hlen : (bufBytes s ++ [c]).length = s.tot := by
    rw [List.length_append, (buf_eq_listed (inv_buf hi)).2]; exact hlast
  obtain ⟨t, ht, hevent, hfields⟩ := pipeline_answers (bufBytes s ++ [c]) (toIdle s)
  obtain ⟨hidle, hcfg⟩ := pipeline_toIdle_idle ht
  exact ⟨t, (execEof_eq (inv_buf hi) c).trans ht, hidle, hlen, pipeline_event (s := toIdle s) ht,
    hlen ▸ hevent, hcfg, hfields⟩

/-! ### Clock periods without a byte -/

/-- A clock period with neither `rst` nor a byte is consumed and changes no register, whatever the encoder is used for
(44_pipeline.md R203, 43_encoder.md R187). -/
theorem step_without_byte {s : State}
    (h : ∀ p, s.input.head? = some p → p.rst = false ∧ p.rxValid = false ∧ validRequest p.req = true) :
    ∃ frame, step s = .next { s with input := s.input.drop 1, event := .none, tx := frame } := by
  cases hin : s.input with
  | nil => exact ⟨[], by rw [step_no_input hin]; simp [setEvent, setTx, hin]⟩
  | cons p rest =>
    obtain ⟨hrst, hvalid, hreq⟩ := h p (by rw [hin]; rfl)
    refine ⟨encoderOut s.cfg p.req, ?_⟩
    rw [step_cons hin hreq, show selectRx s.st (lastByte s) p = none by simp [selectRx, hrst, hvalid]]
    rfl

/-- Settles O4: the store is inside `BUF` and writes index `CNT` alone; a clock period without a byte writes no
register. -/
theorem accAppendsByte : Obligations.AccAppendsByte := by
  refine ⟨fun s b hcnt => ⟨memWrite s.buf s.cnt b, execAcc_eq b hcnt, memRead_memWrite_same _ _ _,
      memRead_memWrite_other _ _ _⟩,
    fun s b hst hlast => rxStep_acc hst hlast.ne b, fun s b q more hst hq hin => ?_⟩
  obtain ⟨frame, hstep⟩ := step_without_byte (s := s) fun p hp => by
    obtain rfl : _ = p := by simpa [hin] using hp
    exact ⟨rfl, rfl, hq⟩
  exact ⟨_, hstep, hst, rfl, rfl, rfl, rfl⟩

/-- Settles O34: by induction on the number of clock periods. -/
theorem noTimeout : Obligations.NoTimeout := by
  intro k
  induction k with
  | zero =>
    intro s h
    obtain ⟨frame, hstep⟩ := step_without_byte fun p hp => h p (List.mem_of_head? hp)
    exact ⟨frame, core_run_succ 0 _ _ hstep⟩
  | succ k ih =>
    intro s h
    obtain ⟨frame, hstep⟩ := step_without_byte fun p hp => h p (List.mem_of_head? hp)
    obtain ⟨last, hrun⟩ := ih { s with input := s.input.drop 1, event := .none, tx := frame }
      fun p hp => h p (List.mem_of_mem_drop hp)
    refine ⟨last, (core_run_succ (k + 1) _ _ hstep).trans (hrun.trans ?_)⟩
    rw [List.drop_drop, Nat.add_comm 1]

/-! ### The splitter -/

/-- What may stand in `BUF` between two bytes: nothing, the delimiter alone, or the beginning of a frame whose length
byte asks for more (10_state.md R27, 40_framer.md R112). -/
def PartialFrame (c : Config) : List Byte → Prop
  | [] => True
  | [d] => d = delimRx
  | d :: l :: more => d = delimRx ∧ more.length + 2 < frameTotal c l

/-- A frame has at least a byte after its length byte (40_framer.md R110). -/
theorem three_le_frameTotal {c : Config} (hc : c.wf = true) (l : Byte) : 3 ≤ frameTotal c l := by
  have := (config_bounds hc).1
  unfold frameTotal
  omega

/-- The splitter at a delimiter and its length byte. -/
theorem splitFuel_delim (c : Config) (f : Nat) (l : Byte) (more : List Byte) :
    splitFuel c (f + 1) (delimRx :: l :: more) =
      if frameTotal c l ≤ (delimRx :: l :: more).length then
        ((delimRx :: l :: more).take (frameTotal c l) ::
          (splitFuel c f ((delimRx :: l :: more).drop (frameTotal c l))).1,
          (splitFuel c f ((delimRx :: l :: more).drop (frameTotal c l))).2)
      else ([], delimRx :: l :: more) := by
  rw [splitFuel, if_neg (not_not.2 rfl)]

/-- The splitter does not depend on its fuel, where that is no less than the length of the list. -/
theorem splitFuel_congr {c : Config} (hc : c.wf = true) {f g : Nat} {bytes : List Byte} (hf : bytes.length ≤ f)
    (hg : bytes.length ≤ g) : splitFuel c f bytes = splitFuel c g bytes := by
  induction f generalizing g bytes with
  | zero =>
    obtain rfl := List.eq_nil_of_length_eq_zero (Nat.le_zero.1 hf)
    cases g <;> rfl
  | succ f ih =>
    match bytes, g with
    | [], 0 => rfl
    | [], g + 1 => rfl
    | b :: bs, g + 1 =>
      simp only [List.length_cons, Nat.add_le_add_iff_right] at hf hg
      by_cases hb : b = delimRx
      · subst hb
        match bs with
        | [] => simp [splitFuel]
        | l :: more =>
          have hn := three_le_frameTotal hc l
          simp only [List.length_cons] at hf hg
          have htail := ih (g := g) (bytes := (delimRx :: l :: more).drop (frameTotal c l))
            (by simp only [List.length_drop, List.length_cons]; omega)
            (by simp only [List.length_drop, List.length_cons]; omega)
          rw [splitFuel_delim, splitFuel_delim, htail]
      · simp only [splitFuel, ne_eq, hb, not_false_eq_true, if_true]
        exact ih hf hg

/-- A byte that is no delimiter is dropped while hunting. -/
theorem split_skip (c : Config) {b : Byte} (hb : b ≠ delimRx) (bs : List Byte) :
    split c (b :: bs) = split c bs ∧ leftOver c (b :: bs) = leftOver c bs := by
  simp [split, leftOver, splitFuel, hb]

theorem split_partialFrame {c : Config} {bytes : List Byte} (h : PartialFrame c bytes) :
    split c bytes = [] ∧ leftOver c bytes = bytes := by
  match bytes with
  | [] => exact ⟨rfl, rfl⟩
  | [d] =>
    obtain rfl : d = delimRx := h
    simp [split, leftOver, splitFuel]
  | d :: l :: more =>
    obtain ⟨rfl, hlt⟩ := h
    have hn : ¬ frameTotal c l ≤ more.length + 2 := Nat.not_le.2 hlt
    simp [split, leftOver, splitFuel, hn]

/-- Where the bytes that the length byte asks for stand in the list, they are cut. -/
theorem split_take_drop {c : Config} (hc : c.wf = true) {l : Byte} {more : List Byte}
    (h : frameTotal c l ≤ (delimRx :: l :: more).length) :
    split c (delimRx :: l :: more) = (delimRx :: l :: more).take (frameTotal c l) ::
        split c ((delimRx :: l :: more).drop (frameTotal c l)) ∧
      leftOver c (delimRx :: l :: more) = leftOver c ((delimRx :: l :: more).drop (frameTotal c l)) := by
  have hn := three_le_frameTotal hc l
  have hfuel : splitFuel c (more.length + 1) ((delimRx :: l :: more).drop (frameTotal c l)) =
      splitFuel c ((delimRx :: l :: more).drop (frameTotal c l)).length
        ((delimRx :: l :: more).drop (frameTotal c l)) :=
    splitFuel_congr hc (by simp only [List.length_drop, List.length_cons]; omega) le_rfl
  rw [split, leftOver, List.length_cons, List.length_cons, splitFuel_delim, if_pos h, hfuel]
  exact ⟨rfl, rfl⟩

/-- Settles O55: the definition of the splitter, whose fuel never runs out. -/
theorem splitterEquations : Obligations.SplitterEquations := by
  intro c hc
  refine ⟨⟨rfl, rfl⟩, fun b bs hb => split_skip c hb bs, split_partialFrame rfl, fun l bs n hn h => ?_,
    fun l bs h => split_partialFrame ⟨rfl, h⟩⟩
  subst hn
  exact split_take_drop hc h

/-- The bytes that a length byte asks for are a candidate frame (40_framer.md R106). -/
theorem candidate_take {c : Config} (hc : c.wf = true) {l : Byte} {more : List Byte}
    (h : frameTotal c l ≤ (delimRx :: l :: more).length) :
    candidate c ((delimRx :: l :: more).take (frameTotal c l)) = true := by
  obtain ⟨k, hk⟩ := Nat.exists_eq_add_of_le' (three_le_frameTotal hc l)
  rw [hk] at h ⊢
  simp only [List.length_cons] at h
  simp only [List.take_succ_cons, candidate, List.length_take, hk, beq_self_eq_true, Bool.true_and,
    beq_iff_eq]
  omega

theorem candidate_eq_cons {c : Config} {frame : List Byte} (h : candidate c frame = true) :
    ∃ l more, frame = delimRx :: l :: more ∧ frame.length = frameTotal c l := by
  match frame, h with
  | d :: l :: more, h =>
    simp only [candidate, Bool.and_eq_true, beq_iff_eq] at h
    exact ⟨l, more, by rw [h.1], h.2⟩

/-- A candidate frame at the head of a list is cut from it. -/
theorem split_candidate {c : Config} (hc : c.wf = true) {frame : List Byte} (h : candidate c frame = true)
    (bs : List Byte) :
    split c (frame ++ bs) = frame :: split c bs ∧ leftOver c (frame ++ bs) = leftOver c bs := by
  obtain ⟨l, more, rfl, hlen⟩ := candidate_eq_cons h
  have hle : frameTotal c l ≤ (delimRx :: l :: (more ++ bs)).length := by
    rw [← hlen]; simp
  have hcut := split_take_drop hc hle
  simp only [← List.cons_append, List.take_left' hlen, List.drop_left' hlen] at hcut
  exact hcut

/-- Induction along the splitter: a list is a partial frame, or a byte to skip before a list, or a candidate frame before
a list (40_framer.md R112). -/
theorem splitter_induction {c : Config} (hc : c.wf = true) {motive : List Byte → Prop}
    (rest : ∀ bytes, PartialFrame c bytes → motive bytes)
    (skip : ∀ b bs, b ≠ delimRx → motive bs → motive (b :: bs))
    (frame : ∀ frame bs, candidate c frame = true → motive bs → motive (frame ++ bs)) (bytes : List Byte) :
    motive bytes := by
  induction hlen : bytes.length using Nat.strong_induction_on generalizing bytes with
  | _ n ih =>
    subst hlen
    match bytes with
    | [] => exact rest [] trivial
    | b :: bs =>
      by_cases hb : b = delimRx
      · subst hb
        match bs with
        | [] => exact rest _ rfl
        | l :: more =>
          rcases Nat.lt_or_ge (delimRx :: l :: more).length (frameTotal c l) with hlt | hle
          · exact rest _ ⟨rfl, hlt⟩
          · have hn := three_le_frameTotal hc l
            have htail := ih _ (by simp only [List.length_drop, List.length_cons]; omega)
              ((delimRx :: l :: more).drop (frameTotal c l)) rfl
            have hall := frame _ _ (candidate_take hc hle) htail
            rwa [List.take_append_drop] at hall
      · exact skip b bs hb (ih bs.length (Nat.lt_succ_self _) bs rfl)

theorem mem_split_segment {c : Config} (hc : c.wf = true) (bytes : List Byte) :
    ∀ frame ∈ split c bytes, candidate c frame = true ∧ frame <:+: bytes := by
  induction bytes using splitter_induction hc with
  | rest bytes h => simp [(split_partialFrame h).1]
  | skip b bs hb ih =>
    rw [(split_skip c hb bs).1]
    exact fun frame hmem => ⟨(ih frame hmem).1, List.infix_cons (ih frame hmem).2⟩
  | frame first bs h ih =>
    rw [(split_candidate hc h bs).1]
    intro frame hmem
    rcases List.mem_cons.1 hmem with rfl | hmem
    · exact ⟨h, (List.prefix_append frame bs).isInfix⟩
    · obtain ⟨hcand, hinfix⟩ := ih frame hmem
      exact ⟨hcand, hinfix.trans (List.suffix_append first bs).isInfix⟩

theorem split_sublist {c : Config} (hc : c.wf = true) (bytes : List Byte) :
    List.Sublist ((split c bytes).flatten ++ leftOver c bytes) bytes := by
  induction bytes using splitter_induction hc with
  | rest bytes h => simp [split_partialFrame h]
  | skip b bs hb ih =>
    rw [(split_skip c hb bs).1, (split_skip c hb bs).2]
    exact ih.cons b
  | frame first bs h ih =>
    rw [(split_candidate hc h bs).1, (split_candidate hc h bs).2, List.flatten_cons, List.append_assoc]
    exact ih.append_left first

/-- Settles O57: both parts by induction along the splitter. -/
theorem framesAreDisjointSegments : Obligations.FramesAreDisjointSegments :=
  fun _ bytes hc => ⟨mem_split_segment hc bytes, split_sublist hc bytes⟩

/-- Settles O58: by induction along the splitter on the first list; a partial frame is its own rest. -/
theorem splitContinuesFromTheRest : Obligations.SplitContinuesFromTheRest := by
  intro c as bs hc
  induction as using splitter_induction hc with
  | rest as h => simp [split_partialFrame h]
  | skip b as hb ih =>
    simp only [List.cons_append, split_skip c hb]
    exact ih
  | frame frame as h ih =>
    simp only [List.append_assoc, split_candidate hc h, List.cons_append, List.cons.injEq, true_and]
    exact ih

/-! ### The register machine refines the splitter -/

/-- What a received byte does to the bytes buffered and which event it gives, under the invariant: it is dropped with
nothing buffered, or appended, or it completes a candidate frame. -/
inductive BufferEffect (s : State) (b : Byte) (t : State) : Prop
  /-- SKIP (R101). -/
  | skipped (hbuf : bufBytes s = []) (hb : b ≠ delimRx) (hbuf' : bufBytes t = []) (hevent : t.event = .none)
  /-- SOF, LEN, ACC (R102 to R104). -/
  | appended (hbuf' : bufBytes t = bufBytes s ++ [b]) (hevent : t.event = .none)
  /-- EOF (R105). -/
  | emitted (hframe : candidate s.cfg (bufBytes s ++ [b]) = true) (hbuf' : bufBytes t = [])
      (hevent : t.event = frameEvent s.cfg (bufBytes s ++ [b]))

/-- A hunting block has nothing buffered. -/
theorem inv_hunt_bufBytes {s : State} (hi : s.inv = true) (hst : s.st = .hunt) : bufBytes s = [] := by
  obtain ⟨-, -, -, hb⟩ := inv_hunt hi hst
  exact bufBytes_of_listed (bs := []) hb

theorem inv_partialFrame {s : State} (hi : s.inv = true) : PartialFrame s.cfg (bufBytes s) := by
  cases hst : s.st with
  | hunt =>
    rw [inv_hunt_bufBytes hi hst]
    trivial
  | len =>
    obtain ⟨-, -, hb, -⟩ := inv_len hi hst
    rw [hb]; rfl
  | data =>
    obtain ⟨-, hlt, ⟨l, more, hb, ht⟩, -⟩ := inv_data hi hst
    rw [← (buf_eq_listed (inv_buf hi)).2, ht, hb] at hlt
    rw [hb]
    exact ⟨rfl, hlt⟩

/-- The last byte makes the buffered bytes a candidate frame (40_framer.md R105, R106). -/
theorem inv_candidate {s : State} (hi : s.inv = true) (hst : s.st = .data) (hlast : s.cnt + 1 = s.tot) (b : Byte) :
    candidate s.cfg (bufBytes s ++ [b]) = true := by
  obtain ⟨-, -, ⟨l, more, hb, ht⟩, -⟩ := inv_data hi hst
  have hlen := (buf_eq_listed (inv_buf hi)).2
  rw [hb] at hlen ⊢
  simp only [List.length_cons] at hlen
  simp only [List.cons_append, candidate, List.length_append, List.length_singleton, beq_self_eq_true, Bool.true_and,
    beq_iff_eq]
  omega

theorem bufferEffect_of_rxStep {s t : State} {b : Byte} (hi : s.inv = true) (h : rxStep s b = .next t) :
    BufferEffect s b t := by
  have happend := append_byte (inv_buf hi) b
  cases hst : s.st with
  | hunt =>
    have hcnt := (inv_hunt hi hst).1
    have hempty := inv_hunt_bufBytes hi hst
    by_cases hd : b = delimRx
    · subst hd
      rw [rxStep_sof hst] at h
      cases execSof_next h
      exact .appended (bufBytes_of_listed (hcnt ▸ happend)) rfl
    · rw [rxStep_skip hst hd] at h
      cases h
      exact .skipped hempty hd hempty rfl
  | len =>
    have hcnt := (inv_len hi hst).1
    rw [rxStep_len hst] at h
    cases execLen_next h
    exact .appended (bufBytes_of_listed (hcnt ▸ happend)) rfl
  | data =>
    by_cases hlast : s.cnt + 1 = s.tot
    · have hpipe := (execEof_eq (inv_buf hi) b).symm.trans ((rxStep_eof hst hlast b).symm.trans h)
      have hbuf := idle_buf (pipeline_toIdle_idle hpipe).1
      exact .emitted (inv_candidate hi hst hlast b) (bufBytes_of_listed (bs := []) hbuf)
        (pipeline_event (s := toIdle s) hpipe)
    · rw [rxStep_acc hst hlast] at h
      obtain ⟨-, rfl⟩ := execAcc_next h
      exact .appended (bufBytes_of_listed happend) rfl

theorem rxStep_keeps_inv {s t : State} {b : Byte} (hi : s.inv = true) (h : rxStep s b = .next t) : t.inv = true :=
  (receiveEffect_of_rxStep h).keeps_inv hi

theorem rxStep_keeps_cfg {s t : State} {b : Byte} (h : rxStep s b = .next t) : t.cfg = s.cfg :=
  (configurationIsStatic _ s t h).1

theorem completed_cons_none (es : List Event) : completed (Event.none :: es) = completed es := rfl

theorem completed_cons_of_ne {e : Event} (h : e ≠ .none) (es : List Event) :
    completed (e :: es) = e :: completed es := by
  simp [completed, h]

/-- From every state that meets the invariant a run completes the frames that the splitter cuts from the bytes buffered
followed by the bytes received, and leaves their rest buffered: a byte appended moves from the one list to the other. -/
theorem run_split {s t : State} {bytes : List Byte} {events : List Event} (hi : s.inv = true)
    (h : run s bytes = .next (t, events)) :
    completed events = (split s.cfg (bufBytes s ++ bytes)).map (frameEvent s.cfg) ∧
    bufBytes t = leftOver s.cfg (bufBytes s ++ bytes) := by
  induction bytes generalizing s events with
  | nil =>
    cases h
    simp [split_partialFrame (inv_partialFrame hi)]
  | cons b bs ih =>
    obtain ⟨u, es, hstep, hrun, rfl⟩ := run_cons_inv h
    have hrest := ih (rxStep_keeps_inv hi hstep) hrun
    rw [rxStep_keeps_cfg hstep] at hrest
    cases bufferEffect_of_rxStep hi hstep with
    | skipped hbuf hb hbuf' hevent =>
      simpa only [hbuf, hbuf', hevent, List.nil_append, completed_cons_none, split_skip s.cfg hb] using hrest
    | appended hbuf' hevent =>
      simpa only [hbuf', hevent, List.append_assoc, List.singleton_append, completed_cons_none] using hrest
    | emitted hframe hbuf' hevent =>
      have hcut := split_candidate (inv_cfg hi) hframe bs
      simp only [List.append_assoc, List.singleton_append] at hcut
      rw [hcut.1, hcut.2, hevent, completed_cons_of_ne (frameEvent_ne_none _ _), List.map_cons, List.cons.injEq]
      simpa only [hbuf', List.nil_append, true_and] using hrest

/-- Settles O56: a hunting block has nothing buffered, so the splitter runs on the bytes received alone. -/
theorem machineRefinesTheSplitter : Obligations.MachineRefinesTheSplitter := by
  intro s t bytes events hi hst h
  simpa only [inv_hunt_bufBytes hi hst, List.nil_append] using run_split hi h

end Sys2Proof.Machine

/-! PROOFS. The checksum and its laws (41_checksum.md R130 to R137). -/

namespace Sys2Proof.Machine

/-! ### COMPUTE and VERIFY run by themselves -/

/-- Settles O11: the negated sum modulo 256 over the integers is COMPUTE's second form over the naturals. -/
theorem computeNegatesTheSum : Obligations.ComputeNegatesTheSum := fun s bytes =>
  ⟨compute bytes, rfl, by rw [compute_toNat]; omega, compute_toNat bytes⟩

theorem verify_eq_decide (frame : List Byte) : verify frame = decide (frame ≠ [] ∧ total frame % 256 = 0) := by
  rw [Bool.eq_iff_iff, verify_iff, decide_eq_true_iff]

/-- Settles O12: VERIFY's value is the zero-sum test, which the operation puts on the unit's output. -/
theorem verifyIsTheZeroSumTest : Obligations.VerifyIsTheZeroSumTest := fun s frame => by
  rw [← verify_eq_decide]; rfl

/-! ### The trailer of a frame -/

/-- Settles O13: COMPUTE is the one byte that completes the sum to a multiple of 256. -/
theorem verifyIffTrailerIsCompute : Obligations.VerifyIffTrailerIsCompute := verify_snoc_iff

/-- Settles O14: in `DATA` the running sum is the sum of the buffered bytes modulo 256, and stays so with one more byte. -/
theorem runningSumDecidesVerify : Obligations.RunningSumDecidesVerify := by
  intro s b hi hst
  obtain ⟨-, -, -, hsum⟩ := inv_data hi hst
  have hnext : (s.sum + b).toNat = total (bufBytes s ++ [b]) % 256 := addByte_toNat hsum
  rw [verify_snoc, beq_iff_eq, ← hnext, ← BitVec.toNat_inj]; rfl

/-! ### The laws of the sum -/

theorem total_eq_sum (bs : List Byte) : total bs = (bs.map BitVec.toNat).sum := by
  induction bs with
  | nil => rfl
  | cons b bs ih => rw [total_cons, ih, List.map_cons, List.sum_cons]

theorem total_perm {as bs : List Byte} (h : as.Perm bs) : total as = total bs := by
  rw [total_eq_sum, total_eq_sum, (h.map _).sum_nat]

/-- A byte replaced takes its own value out of the sum and puts the new one in. -/
theorem total_set {bs : List Byte} {i : Nat} (h : i < bs.length) (y : Byte) :
    total (bs.set i y) + bs[i].toNat = total bs + y.toNat := by
  have hsplit : total bs = total (bs.take i ++ bs[i] :: bs.drop (i + 1)) := by
    rw [← List.drop_eq_getElem_cons h, List.take_append_drop]
  rw [hsplit, List.set_eq_take_append_cons_drop, if_pos h]
  simp only [total_append, total_cons]
  omega

theorem compute_append_toNat (as bs : List Byte) :
    (compute (as ++ bs)).toNat = ((compute as).toNat + (compute bs).toNat) % 256 := by
  simp only [compute_toNat, total_append]; omega

theorem total_add_compute (bs : List Byte) : (total bs + (compute bs).toNat) % 256 = 0 := by
  rw [compute_toNat]; omega

theorem compute_snoc_compute (bs : List Byte) : compute (bs ++ [compute bs]) = 0 := by
  have h := total_add_compute bs
  rw [← BitVec.toNat_inj, compute_toNat, total_append, total_cons, total_nil, Nat.add_zero, h]; rfl

theorem compute_perm {as bs : List Byte} (h : as.Perm bs) : compute as = compute bs :=
  BitVec.eq_of_toNat_eq (by rw [compute_toNat, compute_toNat, total_perm h])

/-- The complement of a natural number `n` is `-(n + 1)`, and that of `-(n + 1)` is `n`. -/
theorem int_not_add_one (n : Int) : ~~~n + 1 = -n := by
  cases n with
  | ofNat n => cases n <;> rfl
  | negSucc n => rfl

/-- Settles O15: each law by its own lemma; the trailer COMPUTE gives is the one that verifies. -/
theorem checksumLaws : Obligations.ChecksumLaws :=
  ⟨compute_toNat, total_add_compute, compute_append_toNat, compute_snoc_compute, fun _ _ => compute_perm,
    fun bs => (verify_snoc_iff bs _).2 rfl, int_not_add_one⟩

/-! ### What VERIFY detects -/

/-- A byte replaced by a different one moves the sum by 1 to 255, so not from one multiple of 256 to another
(41_checksum.md R136). -/
theorem verify_set_eq_false {frame : List Byte} {i : Nat} {y : Byte} (h : i < frame.length)
    (hv : verify frame = true) (hy : y ≠ frame[i]) : verify (frame.set i y) = false := by
  rw [Bool.eq_false_iff]
  intro hv'
  have hzero := ((verify_iff _).1 hv).2
  have hzero' := ((verify_iff _).1 hv').2
  have hset := total_set h y
  have hlt := y.isLt
  have hlt' := frame[i].isLt
  exact hy (BitVec.eq_of_toNat_eq (by omega))

theorem verify_perm {frame other : List Byte} (h : frame.Perm other) : verify frame = verify other := by
  simp only [verify_eq_decide, total_perm h, ne_eq, ← List.length_eq_zero_iff, h.length_eq]

/-- Settles O16: one byte changed moves the sum by less than 256, and another order leaves it as it is. -/
theorem singleByteTamperIsDetected : Obligations.SingleByteTamperIsDetected :=
  ⟨fun _ _ _ h hv hy => verify_set_eq_false h hv hy, fun _ _ hp hv => verify_perm hp ▸ hv⟩

/-! ### Outbound frames -/

/-- An encoded frame is the outbound frame of a wire opcode and its arguments (43_encoder.md R182 to R184). -/
theorem requestFrame_eq_txFrame {kind : BitVec 2} (h : kind ≠ 3) (n : Nat) (e : Bool) : ∃ (op : Byte) (args : List Byte),
    requestFrame kind n e = txFrame (op :: args) ∧ args.length = (if kind = 0 then 1 else 2) ∧
      op = (if kind = 0 then 0x01 else if kind = 1 then 0x03 else 0x0c) := by
  have hk : kind = 0 ∨ kind = 1 ∨ kind = 2 := by bv_omega
  rcases hk with rfl | rfl | rfl <;> exact ⟨_, _, rfl, rfl, rfl⟩

/-- Settles O28: an outbound frame verifies by its trailer, and has three bytes more than its body. -/
theorem encodedFramesVerify : Obligations.EncodedFramesVerify := by
  intro kind n e hk
  obtain ⟨op, args, hframe, hargs, hop⟩ := requestFrame_eq_txFrame hk n e
  have hlen : args.length + 1 < 256 := by rw [hargs]; split <;> omega
  rw [hframe]
  refine ⟨_, op, _, rfl, verify_txFrame _, ?_, ?_, hop⟩
  · rw [txFrame_length, BitVec.toNat_ofNat, List.length_cons, Nat.mod_eq_of_lt hlen]; rfl
  · rw [txFrame_length, List.length_cons, hargs]; split <;> rfl

end Sys2Proof.Machine

/-! PROOFS. The measurement decoder: the fields of the record, LENCHK and DEC, and the round trip of a frame built from
seven values (42_decoder.md R150 to R164). -/

namespace Sys2Proof.Machine

/-! ### The values of the fields -/

/-- The subtraction of `TEMP_OFFSET` from a 16-bit word does not wrap in 17 bits (42_decoder.md R155). -/
theorem fieldTemp_toInt (h l : Byte) : (fieldTemp h l).toInt = 256 * (h.toNat : Int) + l.toNat - 500 := by
  have hh := h.isLt
  have hl := l.isLt
  have hraw : ((be16 h l).setWidth 17).toInt = 256 * (h.toNat : Int) + l.toNat := by
    rw [BitVec.toInt_setWidth, be16_toNat, Int.bmod_eq_of_le (by omega) (by omega)]
    push_cast; rfl
  have hoffset : (BitVec.ofNat 17 tempOffset).toInt = 500 := rfl
  rw [fieldTemp, BitVec.toInt_sub, hraw, hoffset, Int.bmod_eq_of_le (by omega) (by omega)]

theorem present_eq_false_iff (h l : Byte) : present (be16 h l) = false ↔ h = 0 ∧ l = 0 := by
  rw [← be16_eq_zero_iff, present, bne_eq_false_iff_eq]

theorem present_eq_true_iff (raw : Half) : present raw = true ↔ raw.toNat ≠ 0 := by
  rw [present, bne_iff_ne, ne_eq, ← BitVec.toNat_inj]; rfl

/-- Settles O19: each operation writes `be16` of its bytes. -/
theorem plainFieldsAreBigEndian : Obligations.PlainFieldsAreBigEndian :=
  fun _ h l => ⟨be16 h l, be16_toNat h l, rfl, rfl, rfl, rfl⟩

/-- Settles O20: the value is that of `fieldTemp_toInt`, and its bounds are those of a raw word less 500. -/
theorem temperatureNeverWraps : Obligations.TemperatureNeverWraps := by
  intro s h l
  have hv := fieldTemp_toInt h l
  have hh := h.isLt
  have hl := l.isLt
  exact ⟨fieldTemp h l, rfl, by omega, by omega, by omega, by omega⟩

/-- The flag decides what a value port and its present flag denote. -/
theorem ite_present (h l : Byte) (v : Half) :
    (if present (be16 h l) then some v else none) = if h = 0 ∧ l = 0 then none else some v := by
  simp only [← present_eq_false_iff]
  cases present (be16 h l) <;> rfl

/-- Settles O21: the flag is 0 exactly for the raw word 0, and decides what the port denotes. -/
theorem sentinelZeroMeansAbsent : Obligations.SentinelZeroMeansAbsent := by
  refine fun s h l => ⟨be16 h l, present (be16 h l), rfl, rfl, be16_toNat h l, present_eq_false_iff h l, ?_, ?_⟩
  · intro m hv hp
    rw [pm10Value, hp, hv, ite_present]
  · intro m hv hp
    rw [pm1Value, hp, hv, ite_present]

/-! ### Tenths -/

/-- An integer is its sign times its magnitude, which division by 10 takes apart (42_decoder.md R161). -/
theorem displayTenths_exact (v : Int) :
    v = (if (displayTenths v).1 then -1 else 1) * (10 * ((displayTenths v).2.1 : Int) + (displayTenths v).2.2) := by
  have hmag : 10 * ((displayTenths v).2.1 : Int) + (displayTenths v).2.2 = v.natAbs := by
    have hdiv := Nat.div_add_mod v.natAbs 10
    exact_mod_cast hdiv
  rw [hmag]
  by_cases hneg : v < 0
  · rw [if_pos (show (displayTenths v).1 = true from decide_eq_true hneg)]; omega
  · rw [if_neg (show ¬ (displayTenths v).1 = true by simpa [displayTenths] using hneg)]; omega

/-- Settles O23: the display by `displayTenths_exact`; a record's rationals are quotients by 10. -/
theorem tenthsAreExact : Obligations.TenthsAreExact :=
  ⟨fun v => ⟨displayTenths_exact v, Nat.mod_lt _ (by decide), decide_eq_true_iff⟩, rfl,
    fun _ => ⟨div_mul_cancel₀ _ (by norm_num [scale]), div_mul_cancel₀ _ (by norm_num [scale])⟩⟩

/-! ### The payload of a frame -/

theorem lengthOk_iff {c : Config} {frame : List Byte} : lengthOk c frame = true ↔ frame.length = c.frameLenDec :=
  beq_iff_eq

/-- The payload has 14 bytes exactly in a frame of the accepted length (42_decoder.md R151). -/
theorem payloadOf_length_eq_iff (c : Config) (frame : List Byte) :
    (payloadOf c frame).length = payloadLen ↔ frame.length = c.frameLenDec := by
  refine ⟨fun h => by_contra fun hne => payloadOf_length_ne hne h, fun h => ?_⟩
  rw [payloadOf_length, h, Config.frameLenDec]
  omega

/-- Payload byte `k` is `F[PAYLOAD_OFFSET + k]` (42_decoder.md R150). -/
theorem payloadOf_getD {c : Config} {frame : List Byte} (h : frame.length = c.frameLenDec) {k : Nat}
    (hk : k < payloadLen) : (payloadOf c frame).getD k 0 = frame.getD (c.payloadOffset + k) 0 := by
  have hlast : c.payloadOffset + k < frame.length - 1 := by
    rw [h, Config.frameLenDec]; omega
  simp only [payloadOf, List.getD_eq_getElem?_getD, List.getElem?_drop, List.getElem?_take, if_pos hlast]

/-- The payload stands between the uninterpreted bytes and the trailer (20_memory.md R53). -/
theorem payloadOf_append {c : Config} {lead : List Byte} (h : lead.length = c.payloadOffset) (payload : List Byte)
    (trailer : Byte) : payloadOf c (lead ++ payload ++ [trailer]) = payload := by
  have htake : (lead ++ payload ++ [trailer]).take ((lead ++ payload ++ [trailer]).length - 1) = lead ++ payload :=
    List.take_left' (by simp)
  rw [payloadOf, htake, List.drop_left' h]

/-! ### LENCHK -/

theorem exec_lenchk_pass {s : State} {frame : List Byte} (h : frame.length = s.cfg.frameLenDec) :
    exec (.lenchk frame) s = .next (setEvent .none s) :=
  if_pos (lengthOk_iff.2 h)

theorem exec_lenchk_fail {s : State} {frame : List Byte} (h : frame.length ≠ s.cfg.frameLenDec) :
    exec (.lenchk frame) s = .next (setEvent (.lenErr frame.length) (setLenErr true s)) :=
  if_neg (mt lengthOk_iff.1 h)

/-- Settles O17: the check compares the frame's length, which the payload's determines, and the pipeline makes it after
VERIFY. -/
theorem lenchkTestsPayloadLength : Obligations.LenchkTestsPayloadLength := by
  refine ⟨fun s frame h => exec_lenchk_pass h, fun s frame h => exec_lenchk_fail h,
    fun c frame => ⟨payloadOf_length c frame, payloadOf_length_eq_iff c frame⟩, fun s frame h => ?_⟩
  rcases pipeline_cases frame s with ⟨hv, hp⟩ | ⟨hv, -, hp⟩ | ⟨-, hl, -⟩
  · rw [hp, hv]; rfl
  · rw [hp, if_pos hv, exec_lenchk_fail h]
  · exact absurd (lengthOk_iff.1 hl) h

/-! ### DEC -/

/-- The record `r` holds the values that the field rules give for the payload bytes `p 0` to `p 13`
(42_decoder.md R152 to R159). -/
structure HoldsPayload (p : Nat → Nat) (r : Meas) : Prop where
  co2 : r.co2.toNat = 256 * p 0 + p 1
  voc : r.voc.toNat = 256 * p 2 + p 3
  humX10 : r.humX10.toNat = 256 * p 4 + p 5
  tempX10 : r.tempX10.toInt = 256 * (p 6 : Int) + p 7 - 500
  pm25 : r.pm25.toNat = 256 * p 8 + p 9
  pm10 : r.pm10.toNat = 256 * p 10 + p 11
  pm10Present : r.pm10Present = true ↔ 256 * p 10 + p 11 ≠ 0
  pm1 : r.pm1.toNat = 256 * p 12 + p 13
  pm1Present : r.pm1Present = true ↔ 256 * p 12 + p 13 ≠ 0

theorem decodePayload_holds {bytes : List Byte} {r : Meas} (h : decodePayload bytes = some r) :
    HoldsPayload (fun k => (bytes.getD k 0).toNat) r := by
  unfold decodePayload at h
  split at h
  case h_1 p0 p1 p2 p3 p4 p5 p6 p7 p8 p9 p10 p11 p12 p13 =>
    cases h
    exact {
      co2 := be16_toNat p0 p1
      voc := be16_toNat p2 p3
      humX10 := be16_toNat p4 p5
      tempX10 := fieldTemp_toInt p6 p7
      pm25 := be16_toNat p8 p9
      pm10 := be16_toNat p10 p11
      pm10Present := be16_toNat p10 p11 ▸ present_eq_true_iff _
      pm1 := be16_toNat p12 p13
      pm1Present := be16_toNat p12 p13 ▸ present_eq_true_iff _ }
  case h_2 => cases h

theorem HoldsPayload.congr {p q : Nat → Nat} {r : Meas} (hr : HoldsPayload p r) (h : ∀ k < payloadLen, q k = p k) :
    HoldsPayload q r := by
  constructor <;> simp (disch := decide) only [h]
  exacts [hr.co2, hr.voc, hr.humX10, hr.tempX10, hr.pm25, hr.pm10, hr.pm10Present, hr.pm1, hr.pm1Present]

theorem exec_dec_eq {s : State} {frame : List Byte} {r : Meas}
    (hr : decodePayload (payloadOf s.cfg frame) = some r) : exec (.dec frame) s = .next (writeMeas r s) :=
  decodeInto_next.2 ⟨r, hr, rfl⟩

/-- Settles O18: the payload of a frame of the accepted length has a record, whose values the field rules give. -/
theorem decWritesTheRecord : Obligations.DecWritesTheRecord := by
  refine ⟨fun s frame h => ?_, fun s frame h hv => ?_⟩
  · obtain ⟨r, hr⟩ := decode_of_lengthOk (lengthOk_iff.2 h)
    refine ⟨r, exec_dec_eq hr, fun p hp => ?_⟩
    obtain ⟨hco2, hvoc, hhum, htemp, hpm25, hpm10, hflag10, hpm1, hflag1⟩ :=
      (decodePayload_holds hr).congr (q := p) fun k hk => by rw [hp, payloadOf_getD h hk]
    exact ⟨hco2, hvoc, hhum, htemp, hpm25, hpm10, hflag10, hpm1, hflag1⟩
  · rw [pipeline, hv, lengthOk_iff.2 h]; rfl

/-! ### A run on one frame -/

theorem rxStep_answers {s : State} (hi : s.inv = true) (b : Byte) : ∃ t, rxStep s b = .next t := by
  cases hst : s.st with
  | hunt =>
    by_cases hd : b = delimRx
    · exact ⟨_, by rw [hd, rxStep_sof hst]; exact execSof_eq s⟩
    · exact ⟨_, rxStep_skip hst hd⟩
  | len => exact ⟨_, (rxStep_len hst b).trans (execLen_eq b s)⟩
  | data =>
    by_cases hlast : s.cnt + 1 = s.tot
    · obtain ⟨t, ht, -⟩ := pipeline_answers (bufBytes s ++ [b]) (toIdle s)
      exact ⟨t, (rxStep_eof hst hlast b).trans ((execEof_eq (inv_buf hi) b).trans ht)⟩
    · exact ⟨_, (rxStep_acc hst hlast b).trans (execAcc_eq b (inv_cnt_lt_maxFrame hi))⟩

theorem run_answers {s : State} (hi : s.inv = true) (bytes : List Byte) :
    ∃ t events, run s bytes = .next (t, events) := by
  induction bytes generalizing s with
  | nil => exact ⟨s, [], rfl⟩
  | cons b bs ih =>
    obtain ⟨t, ht⟩ := rxStep_answers hi b
    obtain ⟨u, events, hu⟩ := ih (rxStep_keeps_inv hi ht)
    exact ⟨u, _, run_cons_next ht hu⟩

/-- A hunting block that is fed one candidate frame completes that frame and no other. -/
theorem run_candidate {s : State} (hi : s.inv = true) (hst : s.st = .hunt) {frame : List Byte}
    (hc : candidate s.cfg frame = true) :
    ∃ t events, run s frame = .next (t, events) ∧ completed events = [frameEvent s.cfg frame] := by
  obtain ⟨t, events, hrun⟩ := run_answers hi frame
  have hsplit : split s.cfg frame = [frame] := by
    have hcut := (split_candidate (inv_cfg hi) hc []).1
    rwa [List.append_nil, (split_partialFrame (bytes := []) trivial).1] at hcut
  refine ⟨t, events, hrun, ?_⟩
  rw [(machineRefinesTheSplitter s t frame events hi hst hrun).1, hsplit, List.map_singleton]

/-- The event of a frame that passes VERIFY and LENCHK (44_pipeline.md R201). -/
theorem frameEvent_eq_meas {c : Config} {frame : List Byte} {r : Meas} (hv : verify frame = true)
    (hl : lengthOk c frame = true) (hr : decodePayload (payloadOf c frame) = some r) :
    frameEvent c frame = .meas r := by
  simp [frameEvent, hv, hl, hr]

/-- In a well-formed profile some length byte gives the accepted length (00_scope.md R7). -/
theorem frameTotal_accepted {c : Config} (hc : c.wf = true) :
    frameTotal c (BitVec.ofNat 8 (c.frameLenDec - c.overhead)) = c.frameLenDec := by
  obtain ⟨-, -, hle, hge⟩ := config_bounds hc
  rw [frameTotal, BitVec.toNat_ofNat]
  omega

/-- The bytes of a frame before its payload (42_decoder.md R164). -/
def frameLead (c : Config) (between : List Byte) : List Byte :=
  [delimRx, BitVec.ofNat 8 (c.frameLenDec - c.overhead)] ++ between

theorem frameLead_length {c : Config} (hc : c.wf = true) {between : List Byte}
    (hb : between.length = c.payloadOffset - 2) : (frameLead c between).length = c.payloadOffset := by
  have hoff := (config_bounds hc).2.1
  simp only [frameLead, List.length_append, List.length_cons, List.length_nil]
  omega

/-- A frame built from a payload of 14 bytes with COMPUTE's trailer, fed to a hunting block, is measured, and nothing
else is completed. -/
theorem run_built_frame {s : State} (hi : s.inv = true) (hst : s.st = .hunt) {between payload : List Byte}
    (hb : between.length = s.cfg.payloadOffset - 2) (hp : payload.length = payloadLen) {pre : List Byte}
    (hpre : pre = frameLead s.cfg between ++ payload) :
    ∃ t events r, run s (pre ++ [compute pre]) = .next (t, events) ∧ completed events = [Event.meas r] ∧
      decodePayload payload = some r := by
  have hlead := frameLead_length (inv_cfg hi) hb
  have hlen : (pre ++ [compute pre]).length = s.cfg.frameLenDec := by
    rw [hpre, List.length_append, List.length_append, hlead, hp]; rfl
  have hcand : candidate s.cfg (pre ++ [compute pre]) = true := by
    rw [← frameTotal_accepted (inv_cfg hi), hpre] at hlen
    rw [hpre]
    simpa [candidate, frameLead] using hlen
  obtain ⟨r, hr⟩ := decodePayload_isSome hp
  obtain ⟨t, events, hrun, hevents⟩ := run_candidate hi hst hcand
  have hpayload : payloadOf s.cfg (pre ++ [compute pre]) = payload := by
    conv_lhs => rw [hpre]
    exact payloadOf_append hlead payload _
  rw [frameEvent_eq_meas ((verify_snoc_iff pre _).2 rfl) (lengthOk_iff.2 hlen) (hpayload ▸ hr)] at hevents
  exact ⟨t, events, r, hrun, hevents, hr⟩

/-! ### The round trip -/

/-- A word is its high byte times 256 plus its low byte (00_scope.md R11). -/
theorem hi8_lo8_toNat (w : Half) : 256 * (hi8 w.toNat).toNat + (lo8 w.toNat).toNat = w.toNat := by
  rw [← be16_toNat, be16_hi8_lo8_toNat, Nat.mod_eq_of_lt w.isLt]

/-- A field whose value is that of the two bytes of a word is the word. -/
theorem eq_of_toNat_hi8_lo8 {f w : Half} (h : f.toNat = 256 * (hi8 w.toNat).toNat + (lo8 w.toNat).toNat) : f = w :=
  BitVec.eq_of_toNat_eq (h.trans (hi8_lo8_toNat w))

theorem hi8_lo8_ne_zero_iff (w : Half) : 256 * (hi8 w.toNat).toNat + (lo8 w.toNat).toNat ≠ 0 ↔ w ≠ 0 := by
  rw [hi8_lo8_toNat, ne_eq, ne_eq, ← BitVec.toNat_inj]; rfl

/-- Settles O54: the frame is measured by `run_built_frame`, and each word is read back from its two bytes. -/
theorem measurementRoundTrip : Obligations.MeasurementRoundTrip := by
  intro cfg c v h x a b d between hcfg hb pre frame hpre hframe
  have hi : ({ State.reset with cfg := cfg } : State).inv = true := inv_of_idle hcfg rfl
  obtain ⟨t, events, r, hrun, hevents, hr⟩ := run_built_frame hi rfl hb rfl hpre
  have hf := decodePayload_holds hr
  have htemp : r.tempX10.toInt = (x.toNat : Int) - 500 := by
    rw [← hi8_lo8_toNat x]; push_cast; exact hf.tempX10
  exact ⟨t, events, r, hframe ▸ hrun, hevents, eq_of_toNat_hi8_lo8 hf.co2, eq_of_toNat_hi8_lo8 hf.voc,
    eq_of_toNat_hi8_lo8 hf.humX10, htemp, eq_of_toNat_hi8_lo8 hf.pm25, eq_of_toNat_hi8_lo8 hf.pm10,
    hf.pm10Present.trans (hi8_lo8_ne_zero_iff b), eq_of_toNat_hi8_lo8 hf.pm1,
    hf.pm1Present.trans (hi8_lo8_ne_zero_iff d)⟩

end Sys2Proof.Machine

/-! PROOFS. The request encoder: the frames of the requests, the clock periods they stand in, and reading a request back
from its frame (43_encoder.md R180 to R187). -/

namespace Sys2Proof.Machine

/-! ### A clock period with a request -/

/-- The encoder's operation in a clock period is the one its ports select, and the receive side's follows it. -/
theorem step_of_request {s : State} {p : Input} {q : Request} {more : List Input} (h : s.input = p :: more)
    (hq : p.req = some q) :
    step s = andThen (exec (selectRequest q.kind (portOperand s.cfg q.current) q.enable)
      { s with input := more, tx := [] }) (runReceive (selectRx s.st (lastByte s) p)) := by
  rw [stepRunsTheSelectedOperation.1 s p more h, selectEnc, hq]; rfl

/-! ### The frames -/

theorem txFrame_bodyStart : txFrame bodyStart = [0x11, 0x02, 0x01, 0x00, 0xec] := rfl

theorem txFrame_bodyDust (e : Bool) : txFrame (bodyDust e) =
    if e then [0x11, 0x03, 0x0c, 0x02, 0x1e, 0xc0] else [0x11, 0x03, 0x0c, 0x01, 0x1e, 0xc1] := by
  cases e <;> rfl

/-- The head, the length and the opcode of ENC.CAL's frame sum to 0x17, and COMPUTE negates the sum (43_encoder.md R183,
41_checksum.md R130). -/
theorem calTrailer_toNat (hh ll : Byte) : ((compute [0x11, 0x03, 0x03, hh, ll]).toNat : Int) =
    (-(0x17 + hh.toNat + ll.toNat : Int)) % 256 := by
  have hsum : total [0x11, 0x03, 0x03, hh, ll] = 0x17 + hh.toNat + ll.toNat := by
    simp only [total_cons, total_nil, BitVec.reduceToNat]; omega
  rw [compute_toNat, hsum]; omega

/-- ENC.CAL's body keeps its operand modulo 65536 only. -/
theorem bodyCal_congr {m n : Nat} (h : m % 65536 = n % 65536) : bodyCal m = bodyCal n := by
  simp only [bodyCal, h]

/-- A port of 16 or more bits carries all that ENC.CAL reads of a number (93_implementation_defined.md P4). -/
theorem portOperand_mod {c : Config} (h : 16 ≤ c.calW) (n : Nat) : portOperand c n % 65536 = n % 65536 :=
  Nat.mod_mod_of_dvd n (pow_dvd_pow 2 h)

/-! ### Reading a request back -/

/-- The outbound decoder reads the selected operation from the encoder's frame, with ENC.CAL's operand modulo 65536. -/
theorem decodeTx_requestFrame (kind : BitVec 2) (n : Nat) (e : Bool) :
    decodeTx (requestFrame kind n e) = .ok (selectRequest kind n e).onWire := by
  match kind with
  | 0 => exact RequestBody.start.decodeTx_eq
  | 1 => exact (requestBody_bodyCal n).decodeTx_eq
  | 2 =>
    cases e with
    | true => exact RequestBody.dustOn.decodeTx_eq
    | false => exact RequestBody.dustOff.decodeTx_eq
  | 3 => rfl

/-- The ports at which the operation that a frame carries is presented: the selector, the operand and the flag where the
selector has them (43_encoder.md R186). -/
theorem inputOf_selectRequest_onWire (kind : BitVec 2) (n : Nat) (e : Bool) :
    inputOf (selectRequest kind n e).onWire =
      some (requestInput kind (if kind = 1 then n % 65536 else 0) (kind == 2 && e)) := by
  match kind with
  | 0 | 1 | 3 => rfl
  | 2 => cases e <;> rfl

theorem requestInput_inj {k₁ k₂ : BitVec 2} {n₁ n₂ : Nat} {e₁ e₂ : Bool} :
    requestInput k₁ n₁ e₁ = requestInput k₂ n₂ e₂ ↔ k₁ = k₂ ∧ n₁ = n₂ ∧ e₁ = e₂ := by
  simp [requestInput]

/-- Settles O29: equal frames decode to the same operation, which is presented at one selector, operand and flag. -/
theorem encoderIsInjective : Obligations.EncoderIsInjective := by
  intro k₁ k₂ n₁ n₂ e₁ e₂ hframe
  have hop : (selectRequest k₁ n₁ e₁).onWire = (selectRequest k₂ n₂ e₂).onWire := by
    have h := congrArg decodeTx hframe
    rw [decodeTx_requestFrame, decodeTx_requestFrame] at h
    exact Except.ok.inj h
  have hports := congrArg inputOf hop
  rw [inputOf_selectRequest_onWire, inputOf_selectRequest_onWire, Option.some_inj, requestInput_inj] at hports
  obtain ⟨rfl, hoperand, hflag⟩ := hports
  refine ⟨rfl, ?_, ?_⟩
  · rintro rfl; exact hoperand
  · rintro rfl; exact hflag

/-! ### The requests -/

/-- Settles O24: the constant frame, which ENC.START drives in a clock period with `req_kind = 0`. -/
theorem startStreamingFrame : Obligations.StartStreamingFrame :=
  ⟨fun _ => rfl, fun _ _ => txFrame_bodyStart, fun _ _ _ _ _ _ _ h => step_of_request h rfl⟩

/-- Settles O25: the trailer negates the sum of the bytes before it, and a port of 16 bits or more carries the operand
modulo 65536. -/
theorem calibrateFrame : Obligations.CalibrateFrame := by
  refine ⟨fun s n => ?_, fun c n e hw => congrArg txFrame (bodyCal_congr (portOperand_mod hw n)),
    fun s r v b n e more h => step_of_request h rfl⟩
  refine ⟨hi8 (n % 65536), lo8 (n % 65536), _, rfl, ?_, lo8_toNat _, calTrailer_toNat _ _⟩
  rw [hi8_toNat, Nat.mod_mod]

/-- Settles O26: the two constant frames, one of which a clock period with `req_kind = 2` drives as `req_enable` says. -/
theorem dustFrames : Obligations.DustFrames :=
  ⟨fun _ => rfl, fun _ => rfl, fun _ e => txFrame_bodyDust e, fun _ _ _ _ _ _ _ h => step_of_request h rfl⟩

/-- Settles O27: the reserved selector has no frame, and its refusal ends the clock period. -/
theorem reservedSelectorIsRefused : Obligations.ReservedSelectorIsRefused :=
  ⟨fun _ _ => rfl, fun _ => rfl, fun _ _ _ _ _ _ _ h => step_reserved h rfl⟩

end Sys2Proof.Machine

/-! PROOFS. The pipeline on a completed frame, the event of a clock period, and runs on byte lists (44_pipeline.md R200
to R206). -/

namespace Sys2Proof.Machine

/-! ### The pipeline -/

/-- Settles O9: each of the pipeline's three outcomes is what LENCHK or DEC run by itself on the frame does, VERIFY's
failure coming first. -/
theorem pipelineStopsAtTheFirstFailure : Obligations.PipelineStopsAtTheFirstFailure := by
  intro s frame
  rcases pipeline_cases frame s with ⟨hv, hp⟩ | ⟨hv, hl, hp⟩ | ⟨hv, hl, r, hr, hp⟩ <;> rw [hv, hp]
  · exact ⟨fun _ => rfl, nofun, nofun⟩
  · have hlen : frame.length ≠ s.cfg.frameLenDec := by simp [← lengthOk_iff, hl]
    exact ⟨nofun, fun _ _ => ⟨(exec_lenchk_fail hlen).symm, rfl⟩, fun _ h => absurd h hlen⟩
  · have hlen := lengthOk_iff.1 hl
    exact ⟨nofun, fun _ h => absurd hlen h, fun _ _ => ⟨exec_lenchk_pass hlen, (exec_dec_eq hr).symm, r, rfl⟩⟩

/-- The payload of a frame whose trailer stands apart. -/
theorem payloadOf_snoc (c : Config) (bytes : List Byte) (trailer : Byte) :
    payloadOf c (bytes ++ [trailer]) = bytes.drop c.payloadOffset := by
  rw [payloadOf, List.take_left' (by simp)]

/-- Settles O8: of the pipeline's outcomes VERIFY and the length leave DEC's alone. -/
theorem goodFrameIsMeasured : Obligations.GoodFrameIsMeasured := by
  intro s c hi _ hlast hv hlen
  have hl : (bufBytes s ++ [c]).length = s.cfg.frameLenDec := by
    rw [List.length_append, (buf_eq_listed (inv_buf hi)).2]
    exact hlast.trans hlen
  rcases pipeline_cases (bufBytes s ++ [c]) (toIdle s) with ⟨hv', -⟩ | ⟨-, hl', -⟩ | ⟨-, -, r, hr, hp⟩
  · simp [hv] at hv'
  · rw [toIdle_cfg, lengthOk_iff.2 hl] at hl'
    cases hl'
  · rw [toIdle_cfg, payloadOf_snoc] at hr
    exact ⟨r, hr, (execEof_eq (inv_buf hi) c).trans hp⟩

/-! ### The strobes -/

/-- Settles O35: the event codes tell the four events apart. -/
theorem oneStrobePerStep : Obligations.OneStrobePerStep := by
  intro s
  unfold measValid frameDrop lenErrStrobe lenErrN
  cases s.event <;> simp [eventCode]

/-! ### Clock periods -/

/-- Settles O33: no operation of the receive side is selected, so the encoder's output alone changes. -/
theorem idlePeriodChangesNothing : Obligations.IdlePeriodChangesNothing :=
  ⟨fun _ _ _ _ hq h => step_cons h hq, fun _ h => step_no_input h⟩

/-- Under the invariant the receive side's part of a clock period answers, whatever stands on its ports. -/
theorem runReceive_answers {s : State} (hi : s.inv = true) (p : Input) :
    ∃ t, runReceive (selectRx s.st (lastByte s) p) s = .next t := by
  unfold selectRx
  split
  · exact ⟨_, rfl⟩
  · split
    · exact rxStep_answers hi p.rxData
    · exact ⟨_, rfl⟩

/-- Settles O37: the encoder's part answers for every request but the reserved selector's, and the receive side's part
under the invariant, which looks neither at the input ports nor at the encoder's output. -/
theorem stepIsTotal : Obligations.StepIsTotal := by
  intro s hi hreq
  cases hin : s.input with
  | nil => exact ⟨_, step_no_input hin⟩
  | cons p rest =>
    rw [step_cons hin (hreq p (by rw [hin]; rfl))]
    exact runReceive_answers (s := setTx (encoderOut s.cfg p.req) (setInput rest s)) hi p

/-- An effect of the receive side with an event is that of EOF, after which the framer is idle (44_pipeline.md
R206(4)). -/
theorem ReceiveEffect.idle_of_event {s t : State} (h : ReceiveEffect s t) (he : t.event ≠ .none) :
    idle t = true ∧ t.freeCtr = s.freeCtr := by
  cases h with
  | eof bytes c _ _ _ hpipe =>
    obtain ⟨u, hu, -, -, -, -, hfree⟩ := pipeline_answers (bytes ++ [c]) (toIdle s)
    obtain rfl : u = t := by simpa [hpipe, eq_comm] using hu
    exact ⟨(pipeline_toIdle_idle hpipe).1, hfree⟩
  | _ => exact absurd rfl he

/-- Settles O46: RESET and an input with nothing presented report `NONE`, and the receive side leaves the encoder's
output as the period's request gave it. -/
theorem framerIsIdleAfterEveryEvent : Obligations.FramerIsIdleAfterEveryEvent := by
  intro s t h he
  obtain ⟨hidle, hfree⟩ : idle t = true ∧ t.freeCtr = s.freeCtr := by
    obtain ⟨frame, rest, ⟨-, hreset⟩ | heffect⟩ := step_effect h
    · cases hreset
      exact absurd rfl he
    · exact heffect.idle_of_event he
  refine ⟨hidle, hfree, ?_⟩
  rcases step_cases h with ⟨-, rfl⟩ | ⟨p, more, hin, -, hrx⟩
  · exact absurd rfl he
  · exact ⟨p, more, hin, (ignoresTx_runReceive_selectRx s.st (lastByte s) p).tx_eq hrx⟩

/-! ### The status bits -/

/-- Neither `STATUS.LENERR` nor `MEAS_WRITTEN` goes from 1 to 0 between the two states. -/
def KeepsStatus (s t : State) : Prop :=
  (s.lenErr = true → t.lenErr = true) ∧ (s.measWritten = true → t.measWritten = true)

theorem pipeline_keepsStatus {frame : List Byte} {s t : State} (h : pipeline frame s = .next t) :
    KeepsStatus s t := by
  rcases pipeline_cases frame s with ⟨-, e⟩ | ⟨-, -, e⟩ | ⟨-, -, r, -, e⟩ <;> rw [e] at h <;> cases h
  · exact ⟨id, id⟩
  · exact ⟨fun _ => rfl, id⟩
  · exact ⟨id, fun _ => rfl⟩

theorem execLenchk_keepsStatus {frame : List Byte} {s t : State} (h : execLenchk frame s = .next t) :
    KeepsStatus s t := by
  unfold execLenchk at h
  split at h <;> cases h
  · exact ⟨id, id⟩
  · exact ⟨fun _ => rfl, id⟩

theorem decodeInto_keepsStatus {frame : List Byte} {s t : State} (h : decodeInto frame s = .next t) :
    KeepsStatus s t := by
  obtain ⟨r, -, rfl⟩ := decodeInto_next.1 h
  exact ⟨id, fun _ => rfl⟩

/-- Settles O43: by the operation. The pipeline, LENCHK and DEC set the bits and never clear them, and every other
operation but RESET writes neither. -/
theorem statusBitsAreMonotonic : Obligations.StatusBitsAreMonotonic := by
  intro i s t hne h
  cases i with
  | sof => cases execSof_next h; exact ⟨id, id⟩
  | len l => cases execLen_next h; exact ⟨id, id⟩
  | acc b =>
    obtain ⟨-, rfl⟩ := execAcc_next h
    exact ⟨id, id⟩
  | eof c =>
    obtain ⟨bytes, -, hpipe⟩ := execEof_next h
    exact pipeline_keepsStatus (s := toIdle s) hpipe
  | lenchk frame => exact execLenchk_keepsStatus h
  | dec frame => exact decodeInto_keepsStatus h
  | encReserved => cases h
  | reset => exact absurd rfl hne
  | _ => cases h; exact ⟨id, id⟩

/-! ### Runs -/

/-- Settles O51: by induction on the first list. -/
theorem chunkBoundariesMeanNothing : Obligations.ChunkBoundariesMeanNothing := by
  intro s t u as bs es fs has hbs
  induction as generalizing s es with
  | nil => cases has; exact hbs
  | cons a as ih =>
    obtain ⟨v, es, hstep, hrun, rfl⟩ := run_cons_inv has
    exact run_cons_next hstep (ih v es hrun)

theorem run_events_length {s t : State} {bytes : List Byte} {events : List Event}
    (h : run s bytes = .next (t, events)) : events.length = bytes.length := by
  induction bytes generalizing s events with
  | nil => cases h; rfl
  | cons b bs ih =>
    obtain ⟨u, es, -, hrun, rfl⟩ := run_cons_inv h
    exact congrArg (· + 1) (ih hrun)

theorem run_keeps_inv {s t : State} {bytes : List Byte} {events : List Event} (hi : s.inv = true)
    (h : run s bytes = .next (t, events)) : t.inv = true := by
  induction bytes generalizing s events with
  | nil => cases h; exact hi
  | cons b bs ih =>
    obtain ⟨u, es, hstep, hrun, rfl⟩ := run_cons_inv h
    exact ih (rxStep_keeps_inv hi hstep) hrun

/-- Settles O52: a run answers under the invariant, keeps it, and reports an event for each byte. -/
theorem runConsumesEveryByte : Obligations.RunConsumesEveryByte := by
  intro s bytes hi
  obtain ⟨t, events, hrun⟩ := run_answers hi bytes
  exact ⟨t, events, hrun, run_events_length hrun, run_keeps_inv hi hrun⟩

/-- `STATUS.LENERR` is written with the event `LENERR` only (60_exceptions.md R222, R226). -/
theorem ReceiveEffect.keeps_lenErr {s t : State} (h : ReceiveEffect s t) (he : ∀ n, t.event ≠ .lenErr n) :
    t.lenErr = s.lenErr := by
  cases h with
  | eof bytes c _ _ _ hpipe =>
    rcases pipeline_cases (bytes ++ [c]) (toIdle s) with ⟨-, e⟩ | ⟨-, -, e⟩ | ⟨-, -, r, -, e⟩ <;>
      rw [e] at hpipe <;> cases hpipe
    · rfl
    · exact absurd rfl (he _)
    · rfl
  | _ => rfl

theorem run_keeps_lenErr {s t : State} {bytes : List Byte} {events : List Event}
    (h : run s bytes = .next (t, events)) (he : ∀ n, Event.lenErr n ∉ events) : t.lenErr = s.lenErr := by
  induction bytes generalizing s events with
  | nil => cases h; rfl
  | cons b bs ih =>
    obtain ⟨u, es, hstep, hrun, rfl⟩ := run_cons_inv h
    have hstay := (receiveEffect_of_rxStep hstep).keeps_lenErr fun n hn => he n (hn ▸ List.mem_cons_self)
    exact (ih hrun fun n hn => he n (List.mem_cons_of_mem _ hn)).trans hstay

/-! ### A run on one candidate frame -/

theorem mem_completed {e : Event} (h : e ≠ .none) {events : List Event} : e ∈ completed events ↔ e ∈ events := by
  simp [completed, h]

/-- Events that complete nothing are all `NONE`. -/
theorem eq_replicate_none_of_completed {events : List Event} (h : completed events = []) :
    events = List.replicate events.length Event.none :=
  List.eq_replicate_iff.2 ⟨rfl, fun e he => by simpa using List.filter_eq_nil_iff.1 h e he⟩

/-- A candidate frame without its last byte is still partial. -/
theorem partialFrame_of_candidate_snoc {c : Config} {pre : List Byte} {b : Byte}
    (h : candidate c (pre ++ [b]) = true) : PartialFrame c pre := by
  match pre with
  | [] => trivial
  | [d] =>
    simp only [List.cons_append, List.nil_append, candidate, Bool.and_eq_true, beq_iff_eq] at h
    exact h.1
  | d :: l :: more =>
    simp only [List.cons_append, candidate, List.length_append, List.length_singleton, Bool.and_eq_true,
      beq_iff_eq] at h
    exact ⟨h.1, by omega⟩

/-- A hunting block that is fed one candidate frame reports `NONE` for every byte but the last, and there the frame's
event (44_pipeline.md R206). -/
theorem run_candidate_snoc {s : State} (hi : s.inv = true) (hst : s.st = .hunt) {pre : List Byte} {c : Byte}
    (hc : candidate s.cfg (pre ++ [c]) = true) :
    ∃ u t, rxStep u c = .next t ∧ t.event = frameEvent s.cfg (pre ++ [c]) ∧
      run s (pre ++ [c]) = .next (t, List.replicate pre.length Event.none ++ [t.event]) := by
  obtain ⟨u, es, hpre⟩ := run_answers hi pre
  obtain ⟨t, hlast⟩ := rxStep_answers (run_keeps_inv hi hpre) c
  have hnone : completed es = [] := by
    rw [(machineRefinesTheSplitter s u pre es hi hst hpre).1,
      (split_partialFrame (partialFrame_of_candidate_snoc hc)).1, List.map_nil]
  have hes := eq_replicate_none_of_completed hnone
  rw [run_events_length hpre] at hes
  have hrun := chunkBoundariesMeanNothing s u t pre [c] es [t.event] hpre (run_cons_next hlast (run_nil t))
  obtain ⟨t', events, hrun', hevents⟩ := run_candidate hi hst hc
  obtain ⟨rfl, rfl⟩ : t = t' ∧ es ++ [t.event] = events := by simpa [hrun] using hrun'
  have hmem : frameEvent s.cfg (pre ++ [c]) ∈ completed [t.event] := by
    rw [completed_append, hnone, List.nil_append] at hevents
    exact hevents ▸ List.mem_singleton_self _
  have hevent := (List.mem_singleton.1 ((mem_completed (frameEvent_ne_none _ _)).1 hmem)).symm
  exact ⟨u, t, hlast, hevent, hes ▸ hrun⟩

/-- A frame of the accepted length with its delimiter and length byte is a candidate frame (40_framer.md R106). -/
theorem candidate_of_accepted {c : Config} (hc : c.wf = true) {frame : List Byte} (hd : frame.head? = some delimRx)
    (hl : frame[1]? = some (BitVec.ofNat 8 (c.frameLenDec - c.overhead))) (hlen : frame.length = c.frameLenDec) :
    candidate c frame = true := by
  match frame with
  | [] => cases hd
  | [_] => cases hl
  | d :: l :: more =>
    obtain rfl : d = delimRx := by simpa using hd
    obtain rfl : l = BitVec.ofNat 8 (c.frameLenDec - c.overhead) := by simpa using hl
    simpa [candidate, frameTotal_accepted hc] using hlen

/-- Settles O53: a good frame is a candidate frame whose event is `MEAS`, and its last byte's step leaves the framer
idle and the record readable. -/
theorem goodFrameIsAccepted : Obligations.GoodFrameIsAccepted := by
  intro s frame hi hst hd hl hlen hsum
  have hcand := candidate_of_accepted (inv_cfg hi) hd hl hlen
  have hok := lengthOk_iff.2 hlen
  obtain ⟨r, hr⟩ := decode_of_lengthOk hok
  have hne : frame ≠ [] := by rintro rfl; cases hd
  have hmeas := frameEvent_eq_meas ((verify_iff frame).2 ⟨hne, hsum⟩) hok hr
  obtain ⟨pre, c, rfl⟩ : ∃ pre c, frame = pre ++ [c] := ⟨_, _, (List.dropLast_concat_getLast hne).symm⟩
  obtain ⟨u, t, hlast, hevent, hrun⟩ := run_candidate_snoc hi hst hcand
  rw [hmeas] at hevent
  rw [hevent] at hrun
  have heffect := receiveEffect_of_rxStep hlast
  refine ⟨t, r, hr, ?_, (heffect.idle_of_event (by simp [hevent])).1, (heffect.measFollowsEvent.2 r hevent).2,
    run_keeps_lenErr hrun fun n hn => ?_⟩
  · simpa using hrun
  · simp [List.mem_replicate] at hn

/-! ### What a run reports -/

/-- The event `MEAS` is that of a verified frame of the accepted length (44_pipeline.md R201). -/
theorem frameEvent_eq_meas_iff {c : Config} {frame : List Byte} {r : Meas} : frameEvent c frame = .meas r ↔
    verify frame = true ∧ lengthOk c frame = true ∧ decodePayload (payloadOf c frame) = some r := by
  refine ⟨fun h => ?_, fun ⟨hv, hl, hr⟩ => frameEvent_eq_meas hv hl hr⟩
  unfold frameEvent at h
  split at h
  · cases h
  · split at h
    · cases h
    · rename_i hv hl
      cases hr : decodePayload (payloadOf c frame) with
      | none => rw [hr] at h; cases h
      | some r' => rw [hr] at h; cases h; exact ⟨by simpa using hv, by simpa using hl, rfl⟩

/-- Settles O60: an event `MEAS` of a run is the event of a frame the splitter cuts, which is a candidate frame in the
stream. -/
theorem measOnlyForGoodFrames : Obligations.MeasOnlyForGoodFrames := by
  intro s t bytes events hi hst hrun
  have hcompleted := (machineRefinesTheSplitter s t bytes events hi hst hrun).1
  refine ⟨fun r hmem => ?_, by rw [hcompleted, List.length_map]⟩
  rw [← mem_completed (by simp), hcompleted] at hmem
  obtain ⟨frame, hframe, hevent⟩ := List.mem_map.1 hmem
  obtain ⟨hv, hl, hr⟩ := frameEvent_eq_meas_iff.1 hevent
  obtain ⟨hcand, hinfix⟩ := mem_split_segment (inv_cfg hi) bytes frame hframe
  exact ⟨frame, hframe, hinfix, goodFrame_of_candidate hcand hl hv, hr⟩

end Sys2Proof.Machine

/-! PROOFS. The two exception events (60_exceptions.md R220 to R226): what EOF does with a frame the pipeline rejects,
and what a step with the event `LENERR` leaves in `STATUS`. -/

namespace Sys2Proof.Machine

/-! ### Rejected frames -/

/-- Settles O6: VERIFY's failure stops the pipeline first, from the idle framer. -/
theorem corruptFrameIsDropped : Obligations.CorruptFrameIsDropped := fun s c hi _ _ hv =>
  (execEof_eq (inv_buf hi) c).trans ((pipelineStopsAtTheFirstFailure (toIdle s) _).1 hv)

/-- Settles O7: the candidate frame has `TOT` bytes, and LENCHK's failure stops the pipeline where VERIFY's does not. -/
theorem wrongLengthSetsLenErr : Obligations.WrongLengthSetsLenErr := by
  intro s c hi hst hlast hv hne
  obtain ⟨-, -, -, hlen, -⟩ := eofEmitsCandidateFrame.1 s c hi hst hlast
  obtain ⟨-, hfail, -⟩ := pipelineStopsAtTheFirstFailure (toIdle s) (bufBytes s ++ [c])
  obtain ⟨-, hpipe⟩ := hfail hv (hlen ▸ hne)
  rw [hlen] at hpipe
  exact (execEof_eq (inv_buf hi) c).trans hpipe

/-! ### The event `LENERR` -/

/-- The pipeline reports `LENERR` from LENCHK alone, which sets the bit for a length that is not the accepted one
(60_exceptions.md R222). -/
theorem pipeline_lenErr_event {frame : List Byte} {s t : State} (h : pipeline frame s = .next t) {n : Nat}
    (he : t.event = .lenErr n) : t.lenErr = true ∧ n ≠ s.cfg.frameLenDec := by
  rcases pipeline_cases frame s with ⟨-, e⟩ | ⟨-, hl, e⟩ | ⟨-, -, r, -, e⟩ <;> rw [e] at h <;> cases h
  · cases he
  · cases he
    exact ⟨rfl, by simp [← lengthOk_iff, hl]⟩
  · cases he

/-- EOF is the one receive effect with the event `LENERR` (60_exceptions.md R220). -/
theorem ReceiveEffect.lenErr_event {s t : State} (h : ReceiveEffect s t) {n : Nat} (he : t.event = .lenErr n) :
    t.lenErr = true ∧ n ≠ s.cfg.frameLenDec := by
  cases h with
  | eof bytes c _ _ _ hpipe => exact pipeline_lenErr_event (s := toIdle s) hpipe he
  | _ => cases he

/-- Settles O45: without a RESET the step is one of the receive side's effects, which write the bit with the event
`LENERR` only. -/
theorem lenErrChangesOnlyWithLenErrEvent : Obligations.LenErrChangesOnlyWithLenErrEvent := by
  intro s t hrst h
  obtain ⟨frame, rest, ⟨⟨p, hp, hr⟩, -⟩ | heffect⟩ := step_effect h
  · exact absurd hr (by simp [hrst p hp])
  · exact ⟨heffect.keeps_lenErr, fun _ => heffect.lenErr_event⟩

end Sys2Proof.Machine

/-! PROOFS. RESET (70_reset_and_hazards.md R250): its whole next state, its selection over any byte, and the clock period
it runs in. -/

namespace Sys2Proof.Machine

/-- RESET's next state; the fields of `MEAS` take the next free value (93_implementation_defined.md U1). -/
theorem exec_reset_eq (s : State) : exec .reset s = .next
    { s with
      st := .hunt, cnt := 0, tot := 0, sum := 0, buf := [], lenErr := false, measWritten := false, event := .none
      meas := Config.freeMeas s.freeCtr, freeCtr := s.freeCtr + 1 } := rfl

/-- `rst = 1` selects RESET, with priority over any byte (60_exceptions.md R225). -/
theorem selectRx_of_rst {p : Input} (h : p.rst = true) (st : FramerState) (last : Bool) :
    selectRx st last p = some .reset := if_pos h

/-- A clock period with `rst = 1` runs RESET beside the encoder's output of that period. -/
theorem step_of_rst {s : State} {p : Input} {more : List Input} (h : s.input = p :: more)
    (hq : validRequest p.req = true) (hrst : p.rst = true) :
    step s = exec .reset (setTx (encoderOut s.cfg p.req) (setInput more s)) := by
  rw [step_cons h hq, selectRx_of_rst hrst]
  rfl

/-- Settles O31: RESET's next state, read off for the clock period that `rst = 1` selects it in. -/
theorem resetClearsEveryRegister : Obligations.ResetClearsEveryRegister := by
  refine ⟨fun s => ⟨_, _, exec_reset_eq s⟩, fun st last _ _ _ => selectRx_of_rst rfl st last,
    fun s v b q more hq hin => ?_⟩
  have hstep := (step_of_rst hin hq rfl).trans (exec_reset_eq _)
  exact ⟨_, hstep, rfl, rfl, rfl, rfl, rfl, rfl, rfl, rfl, rfl, rfl⟩

end Sys2Proof.Machine
